-- ==== Sys2Proof/Word.lean ====
section
/-! DEFINITION. The words of the machine: addressing modes, operands, and the vocabulary of its faults
(60_exceptions.md R125).

The spec's type Cell, "the mathematical integer ℤ" (00_scope.md R8), is `Int` throughout, and its type Addr, ℕ (R9), is
`Nat`: written out, with no synonym, so that decision procedures see them. Nothing is a bit vector: a cell is never
sliced into bits, its fields are decimal digits (R12, R13). -/

namespace Sys2Proof

/-- The addressing modes (30_encoding.md R57). -/
inductive Mode where
  /-- Mode digit 0: the operand is an address, read or written through. -/
  | indirect
  /-- Mode digit 1: the operand is the value itself; illegal as a write target. -/
  | immediate
  /-- Mode digit 2: the operand plus the relative base is an address. -/
  | relative
deriving DecidableEq, Repr

/-- A raw operand with the mode its opcode cell gives it: the `raw` and `mode` ports of the resolver
(41_resolver.md R83). The cell is held verbatim (30_encoding.md R58). -/
structure Operand where
  mode : Mode
  raw  : Int
deriving DecidableEq, Repr

/-- The fault causes (60_exceptions.md R125). InputUnderrun is not among them (R131). -/
inductive Cause where
  /-- Code 1: `opcode mod 100` selects no class (R126). -/
  | unknownOpcode
  /-- Code 2: a mode digit that encodes no mode, or a non-zero digit above the arity (R127). -/
  | invalidModeDigit
  /-- Code 3: mode Immediate at the write position (R128). -/
  | immediateWrite
  /-- Code 4: an effective address or IP below 0 (R129). -/
  | negativeAddress
  /-- Code 5: an opcode cell outside 0..99999 (R130). -/
  | opcodeOutOfRange
deriving DecidableEq, Repr

/-- What the decoder and the resolver report of a fault: the ports `dec_fault = (cause, pos)` (40_decoder.md R69)
and `res_fault = (cause, pos, addr)` (41_resolver.md R83). Position 0 stands for the cell as a whole. -/
structure FaultReport where
  cause : Cause
  pos   : Fin 4
  addr  : Option Int
deriving DecidableEq, Repr

end Sys2Proof
end

