-- ==== Sys2Proof/Config.lean ====
section
/-! DEFINITION. The parameters of the block, all fixed by the spec (00_scope.md R10). None is left open (R11), and no
instruction leaves a result undefined, so there is no free value here. -/

namespace Sys2Proof

/-- The greatest opcode cell for which decoding is defined (00_scope.md R10, 30_encoding.md R66). -/
abbrev Config.maxOpcode : Int := 99999

/-- What a cell never written reads as: "Default value for any address never written is zero"
(10_state.md R33, 20_memory.md R39). -/
abbrev Config.neverWritten : Int := 0

/-- Where execution begins (10_state.md R22, 70_reset_and_hazards.md R145). -/
abbrev Config.entryPoint : Int := 0

/-- The relative base at program start (10_state.md R25). -/
abbrev Config.initialRelativeBase : Int := 0

end Sys2Proof
end

