-- ==== Sys2Proof/Syntax.lean ====
section
/-! DEFINITION. The ten instructions (00_scope.md R3), one constructor for each row of the opcode table
(30_encoding.md R61), named after the spec's class, with the operands in their positions. -/

namespace Sys2Proof

/-- An instruction with its raw operands and their modes. -/
inductive Instr where
  /-- ADD, instruction number 1 (43_arithmetic.md R114). -/
  | add (op1 op2 op3 : Operand)
  /-- MUL, instruction number 2 (43_arithmetic.md R115). -/
  | multiply (op1 op2 op3 : Operand)
  /-- IN, instruction number 3 (44_io.md R116). -/
  | input (op1 : Operand)
  /-- OUT, instruction number 4 (44_io.md R117). -/
  | output (op1 : Operand)
  /-- JT, instruction number 5 (45_jumps.md R119). -/
  | jumpIfTrue (op1 op2 : Operand)
  /-- JF, instruction number 6 (45_jumps.md R120). -/
  | jumpIfFalse (op1 op2 : Operand)
  /-- LT, instruction number 7 (46_compare.md R121). -/
  | lessThan (op1 op2 op3 : Operand)
  /-- EQ, instruction number 8 (46_compare.md R122). -/
  | equals (op1 op2 op3 : Operand)
  /-- ARB, instruction number 9 (47_base_halt.md R123). -/
  | adjustRelativeBase (op1 : Operand)
  /-- HLT, instruction number 99 (47_base_halt.md R124). -/
  | halt
deriving DecidableEq, Repr

/-- The operands in ascending position. -/
def Instr.operands : Instr → List Operand
  | .add a b c => [a, b, c]
  | .multiply a b c => [a, b, c]
  | .input a => [a]
  | .output a => [a]
  | .jumpIfTrue a b => [a, b]
  | .jumpIfFalse a b => [a, b]
  | .lessThan a b c => [a, b, c]
  | .equals a b c => [a, b, c]
  | .adjustRelativeBase a => [a]
  | .halt => []

/-- The write operand: operand 3 of the four storing classes, operand 1 of Input, none elsewhere
(30_encoding.md R62). -/
def Instr.writeOperand : Instr → Option Operand
  | .add _ _ c => some c
  | .multiply _ _ c => some c
  | .input a => some a
  | .output _ => none
  | .jumpIfTrue _ _ => none
  | .jumpIfFalse _ _ => none
  | .lessThan _ _ c => some c
  | .equals _ _ c => some c
  | .adjustRelativeBase _ => none
  | .halt => none

end Sys2Proof
end

