-- ==== Sys2Proof/WellFormed.lean ====
section
/-! DEFINITION. Well-formed instructions: those some opcode cell encodes. The type of modes already holds the legal
digits 0, 1, 2 (30_encoding.md R57) and the constructors hold the arities (R53), so one check is left: the write
operand is never Immediate (30_encoding.md R62, R65). -/

namespace Sys2Proof

/-- "For the write operand the legal mode digits are 0 and 2 only" (30_encoding.md R62). -/
def Operand.legalTarget (o : Operand) : Bool :=
  match o.mode with
  | .indirect => true
  | .immediate => false
  | .relative => true

/-- An instruction is well formed when its write operand, if it has one, is a legal target. -/
def Instr.wellFormed (i : Instr) : Bool :=
  match i.writeOperand with
  | none => true
  | some o => o.legalTarget

end Sys2Proof
end

