-- ==== Sys2Proof/Decode.lean ====
section
/-! DEFINITION. The decoder (40_decoder.md): a pure function of one opcode cell that answers the class, the modes and
the descriptor, or a fault; the assembly of an instruction from its operand cells; and the encoder
(30_encoding.md R68). -/

namespace Sys2Proof

/-- The ten instruction classes, in the order that numbers the select bits (40_decoder.md R69, R72). -/
inductive InstrClass where
  | add | multiply | input | output | jumpIfTrue | jumpIfFalse | lessThan | equals | adjustRelativeBase | halt
deriving DecidableEq, Repr

/-- Why a list of cells holds no instruction at its head. -/
inductive Reject where
  /-- The decoder's own fault, `dec_fault` (40_decoder.md R69). -/
  | fault (r : FaultReport)
  /-- The list ends inside the instruction (DESIGN CHOICE, log 15; safe): memory never does. -/
  | truncated
deriving DecidableEq, Repr

/-- `digit(v, k) = floor(v / 10^(k-1)) mod 10`, place 1 the units (00_scope.md R12). -/
def digit (v k : Nat) : Nat := v / 10 ^ (k - 1) % 10

/-- The mode digit of operand n is the digit at decimal place n + 2 (40_decoder.md R73). -/
def modeDigit (op n : Nat) : Nat := digit op (n + 2)

/-- The mode a digit encodes; the digits 3..9 encode none (30_encoding.md R57). -/
def Mode.ofDigit : Nat → Option Mode
  | 0 => some .indirect
  | 1 => some .immediate
  | 2 => some .relative
  | _ => none

/-- The digit of a mode (30_encoding.md R57). -/
def Mode.digit : Mode → Nat
  | .indirect => 0
  | .immediate => 1
  | .relative => 2

/-- `modeOf(op, n)` (40_decoder.md R74), partial as 90_conflicts.md C2 reads it. -/
def modeOf (op n : Nat) : Option Mode := Mode.ofDigit (modeDigit op n)

/-- The class an instruction number selects; 0 and 10..98 select none (40_decoder.md R72). -/
def InstrClass.ofNumber (num : Nat) : Option InstrClass :=
  if num = 1 then some .add
  else if num = 2 then some .multiply
  else if num = 3 then some .input
  else if num = 4 then some .output
  else if num = 5 then some .jumpIfTrue
  else if num = 6 then some .jumpIfFalse
  else if num = 7 then some .lessThan
  else if num = 8 then some .equals
  else if num = 9 then some .adjustRelativeBase
  else if num = 99 then some .halt
  else none

/-- The instruction number of a class (30_encoding.md R61). -/
def InstrClass.number : InstrClass → Nat
  | .add => 1
  | .multiply => 2
  | .input => 3
  | .output => 4
  | .jumpIfTrue => 5
  | .jumpIfFalse => 6
  | .lessThan => 7
  | .equals => 8
  | .adjustRelativeBase => 9
  | .halt => 99

/-- The one-hot select `sel[9:0]`, bit i for the i-th class (40_decoder.md R69, R72; log 16). -/
def InstrClass.sel : InstrClass → BitVec 10
  | .add => 0b0000000001
  | .multiply => 0b0000000010
  | .input => 0b0000000100
  | .output => 0b0000001000
  | .jumpIfTrue => 0b0000010000
  | .jumpIfFalse => 0b0000100000
  | .lessThan => 0b0001000000
  | .equals => 0b0010000000
  | .adjustRelativeBase => 0b0100000000
  | .halt => 0b1000000000

/-- The arity of a class (40_decoder.md R76). -/
def InstrClass.arity : InstrClass → Nat
  | .add => 3
  | .multiply => 3
  | .input => 1
  | .output => 1
  | .jumpIfTrue => 2
  | .jumpIfFalse => 2
  | .lessThan => 3
  | .equals => 3
  | .adjustRelativeBase => 1
  | .halt => 0

/-- The position of the write operand (40_decoder.md R77). -/
def InstrClass.wpos : InstrClass → Option (Fin 4)
  | .add => some 3
  | .multiply => some 3
  | .input => some 1
  | .output => none
  | .jumpIfTrue => none
  | .jumpIfFalse => none
  | .lessThan => some 3
  | .equals => some 3
  | .adjustRelativeBase => none
  | .halt => none

/-- The descriptor flag `is_halt` (40_decoder.md R78). -/
def InstrClass.isHalt : InstrClass → Bool
  | .halt => true
  | .add | .multiply | .input | .output | .jumpIfTrue | .jumpIfFalse | .lessThan | .equals
  | .adjustRelativeBase => false

/-- The descriptor flag `is_jump` (40_decoder.md R78). -/
def InstrClass.isJump : InstrClass → Bool
  | .jumpIfTrue | .jumpIfFalse => true
  | .add | .multiply | .input | .output | .lessThan | .equals | .adjustRelativeBase | .halt => false

/-- The descriptor flag `requires_input` (40_decoder.md R78). -/
def InstrClass.requiresInput : InstrClass → Bool
  | .input => true
  | .add | .multiply | .output | .jumpIfTrue | .jumpIfFalse | .lessThan | .equals | .adjustRelativeBase
  | .halt => false

/-- The decoder's outputs on success: the class, which fixes `sel`, `arity`, `wpos` and the flags
(40_decoder.md R76 to R78), and the three modes. -/
structure Descriptor where
  cls   : InstrClass
  mode1 : Mode
  mode2 : Mode
  mode3 : Mode
deriving DecidableEq, Repr

/-- The checks of one position k of the ascending pass, and its mode; positions above the arity are Indirect and not
used (40_decoder.md R69, R79, R80, R81). -/
def checkPosition (c : InstrClass) (op : Nat) (k : Fin 4) : Except FaultReport Mode :=
  if k.val ≤ c.arity then
    match modeOf op k.val with
    | none => .error ⟨.invalidModeDigit, k, none⟩
    | some m => if c.wpos = some k ∧ m = .immediate then .error ⟨.immediateWrite, k, none⟩ else .ok m
  else if modeDigit op k.val = 0 then .ok .indirect
  else .error ⟨.invalidModeDigit, k, none⟩

/-- The mode pass over the positions 1, 2, 3 in ascending order; the first fault is the one reported
(40_decoder.md R82, 60_exceptions.md R132 item 4). -/
def decodeModes (c : InstrClass) (op : Nat) : Except FaultReport Descriptor :=
  match checkPosition c op 1 with
  | .error r => .error r
  | .ok m1 =>
    match checkPosition c op 2 with
    | .error r => .error r
    | .ok m2 =>
      match checkPosition c op 3 with
      | .error r => .error r
      | .ok m3 => .ok ⟨c, m1, m2, m3⟩

/-- The whole decode function of an opcode cell (40_decoder.md R82): range (R70), class (R71, R72), modes. -/
def decodeCell (op : Int) : Except FaultReport Descriptor :=
  if op < 0 ∨ Config.maxOpcode < op then .error ⟨.opcodeOutOfRange, 0, none⟩
  else
    match InstrClass.ofNumber (op.toNat % 100) with
    | none => .error ⟨.unknownOpcode, 0, none⟩
    | some c => decodeModes c op.toNat

/-- The instruction of a descriptor and its raw operands `raw[1..arity]`; no cell above the arity is used
(42_dispatch_step.md R95, R96). -/
def assemble (d : Descriptor) (raw : Nat → Int) : Instr :=
  match d.cls with
  | .add => .add ⟨d.mode1, raw 1⟩ ⟨d.mode2, raw 2⟩ ⟨d.mode3, raw 3⟩
  | .multiply => .multiply ⟨d.mode1, raw 1⟩ ⟨d.mode2, raw 2⟩ ⟨d.mode3, raw 3⟩
  | .input => .input ⟨d.mode1, raw 1⟩
  | .output => .output ⟨d.mode1, raw 1⟩
  | .jumpIfTrue => .jumpIfTrue ⟨d.mode1, raw 1⟩ ⟨d.mode2, raw 2⟩
  | .jumpIfFalse => .jumpIfFalse ⟨d.mode1, raw 1⟩ ⟨d.mode2, raw 2⟩
  | .lessThan => .lessThan ⟨d.mode1, raw 1⟩ ⟨d.mode2, raw 2⟩ ⟨d.mode3, raw 3⟩
  | .equals => .equals ⟨d.mode1, raw 1⟩ ⟨d.mode2, raw 2⟩ ⟨d.mode3, raw 3⟩
  | .adjustRelativeBase => .adjustRelativeBase ⟨d.mode1, raw 1⟩
  | .halt => .halt

/-- The instruction at the head of a list of cells and the cells after it: `1 + arity` cells are taken
(30_encoding.md R53, R60). -/
def decode : List Int → Except Reject (Instr × List Int)
  | [] => .error .truncated
  | op :: rest =>
    match decodeCell op with
    | .error r => .error (.fault r)
    | .ok d =>
      if rest.length < d.cls.arity then .error .truncated
      else .ok (assemble d (fun k => rest.getD (k - 1) Config.neverWritten), rest.drop d.cls.arity)

/-- The class of an instruction. -/
def Instr.cls : Instr → InstrClass
  | .add _ _ _ => .add
  | .multiply _ _ _ => .multiply
  | .input _ => .input
  | .output _ => .output
  | .jumpIfTrue _ _ => .jumpIfTrue
  | .jumpIfFalse _ _ => .jumpIfFalse
  | .lessThan _ _ _ => .lessThan
  | .equals _ _ _ => .equals
  | .adjustRelativeBase _ => .adjustRelativeBase
  | .halt => .halt

/-- The mode digit of the n-th operand of a list, 0 for an absent operand (30_encoding.md R68). -/
def operandDigit (os : List Operand) (n : Nat) : Nat :=
  match os[n - 1]? with
  | some o => o.mode.digit
  | none => 0

/-- The opcode cell `number + 100·M1 + 1000·M2 + 10000·M3` (30_encoding.md R68). -/
def opcodeCell (i : Instr) : Int :=
  ((i.cls.number + 100 * operandDigit i.operands 1 + 1000 * operandDigit i.operands 2
    + 10000 * operandDigit i.operands 3 : Nat) : Int)

/-- The cells of an instruction: the opcode cell, then the raw operands verbatim (30_encoding.md R53, R58, R68). -/
def encode (i : Instr) : List Int := opcodeCell i :: i.operands.map (fun o => o.raw)

/-- The host's numbering of an instruction's bits for cells without a width: the word is the whole opcode cell and
the operand cells are 0 (DESIGN CHOICE, log 9). -/
def tableCells (_nbits w : Nat) : List Int := [(w : Int), 0, 0, 0]

/-- The instruction the decoder reads from a word of the opcode table. -/
def decodeTableWord (nbits w : Nat) : Option Instr :=
  match decode (tableCells nbits w) with
  | .ok (i, _) => some i
  | .error _ => none

end Sys2Proof
end

