-- ==== Sys2Proof/Machine/State.lean ====
section
/-! DEFINITION. The state of one instance, `(IP, RB, STATUS, FAULTREC, Mem, InQ, OutQ)` (10_state.md R35), as plain
data, its reset value, and the reasons a step of the model can stop. There is no other state, hidden or per
mode (10_state.md R18, R31, R36; 60_exceptions.md R138, R139). -/

namespace Sys2Proof.Machine

/-- The states of STATUS (10_state.md R27). -/
inductive Status where
  /-- Code 0: the next step may be issued. -/
  | running
  /-- Code 1: the instruction at IP is an Input whose queue was empty. -/
  | awaitingInput
  /-- Code 2: a Halt has executed. -/
  | halted
  /-- Code 3: a fatal fault has occurred. -/
  | faulted
deriving DecidableEq, Repr

/-- FAULTREC's record (10_state.md R30). `opcode` is none when the fetch itself faulted. -/
structure FaultRecord where
  cause  : Cause
  ip     : Int
  opcode : Option Int
  pos    : Fin 4
  addr   : Option Int
deriving DecidableEq, Repr

/-- Memory: the cells that do not read as 0, by strictly rising address (10_state.md R33; log 1). -/
abbrev Memory := List (Nat × Int)

/-- All state of one instance (10_state.md R35). -/
structure State where
  ip       : Int
  rb       : Int
  status   : Status
  faultRec : Option FaultRecord
  mem      : Memory
  inQ      : List Int
  outQ     : List Int
deriving DecidableEq, Repr

/-- The reasons the MODEL could stop with a fault: none. Every fault of the spec has a described entry
(60_exceptions.md R133), so it is a next state with STATUS Faulted, never the host's `fault` outcome (log 2). Nothing
raises a value of this type (safe: it has none). -/
inductive Fault : Type
deriving DecidableEq, Repr

/-- The reasons the model can refuse an instruction. -/
inductive Refusal where
  /-- Raised by an arm of `exec` whose instruction has no meaning yet; no arm does (safe: the model stops where the
  block goes on). -/
  | notModelled (mnemonic : String)
deriving DecidableEq, Repr

/-- What a step or a meaning answers. -/
abbrev Result := Host.Outcome State Fault Refusal

/-- The state right after reset with the empty program image and no input (70_reset_and_hazards.md R143 to R145;
log 4). A reset with an image and inputs is `hostReset`. -/
def State.reset : State where
  ip := Config.entryPoint
  rb := Config.initialRelativeBase
  status := .running
  faultRec := none
  mem := []
  inQ := []
  outQ := []

/-- Write of IP. -/
def State.withIp (s : State) (v : Int) : State := { s with ip := v }

/-- Write of RB. -/
def State.withRb (s : State) (v : Int) : State := { s with rb := v }

/-- Write of STATUS. -/
def State.withStatus (s : State) (v : Status) : State := { s with status := v }

/-- Write of FAULTREC. -/
def State.withFaultRec (s : State) (v : Option FaultRecord) : State := { s with faultRec := v }

/-- Replacement of the whole memory. -/
def State.withMem (s : State) (m : Memory) : State := { s with mem := m }

/-- Replacement of the input queue. -/
def State.withInQ (s : State) (q : List Int) : State := { s with inQ := q }

/-- Replacement of the output sequence. -/
def State.withOutQ (s : State) (q : List Int) : State := { s with outQ := q }

end Sys2Proof.Machine
end

