-- ==== Sys2Proof/Machine/Ops.lean ====
section
/-! DEFINITION. The named operations over the state: the memory capability (20_memory.md R38), the effect descriptor
and its commit (42_dispatch_step.md R98, R103), fault entry (60_exceptions.md R133) and, since no fault returns
(R135), the one resumption there is, the host's input push (10_state.md R29). -/

namespace Sys2Proof.Machine

/-- The canonical form of memory: addresses strictly rise, and no listed cell holds what an unlisted address reads as
(log 1). -/
def Memory.wf (m : Memory) : Bool :=
  decide (m.Pairwise (fun x y => x.1 < y.1) ∧ ∀ c ∈ m, c.2 ≠ Config.neverWritten)

/-- `MemRead(a, 1)`: the cell at a, 0 for an address never written (20_memory.md R39). -/
def Memory.read : Memory → Nat → Int
  | [], _ => Config.neverWritten
  | (b, v) :: m, a => if b = a then v else Memory.read m a

/-- The cell v at address a, at the head of the list m, unless it reads as an unlisted cell does. -/
def Memory.consCell (a : Nat) (v : Int) (m : Memory) : Memory :=
  if v = Config.neverWritten then m else (a, v) :: m

/-- `MemWrite(a, 1, v)`: sets the cell at a to v, for every address and every value (20_memory.md R40), keeping the
canonical form. -/
def Memory.write : Memory → Nat → Int → Memory
  | [], a, v => Memory.consCell a v []
  | (b, w) :: m, a, v =>
    if a < b then Memory.consCell a v ((b, w) :: m)
    else if a = b then Memory.consCell a v m
    else (b, w) :: Memory.write m a v

/-- The program image placed at ascending addresses from a (70_reset_and_hazards.md R144). -/
def Memory.load : Nat → List Int → Memory
  | _, [] => []
  | a, w :: ws => Memory.consCell a w (Memory.load (a + 1) ws)

/-- The effect descriptor of a behaviour (42_dispatch_step.md R98). -/
inductive Effect where
  /-- Write v at address a. -/
  | store (a : Nat) (v : Int)
  /-- Write input value v at a, and consume it from InQ. -/
  | inputStore (a : Nat) (v : Int)
  /-- Input with no value available. -/
  | await
  /-- Deliver v to the output channel. -/
  | emit (v : Int)
  /-- Set IP to t. -/
  | jump (t : Int)
  /-- No effect; fall through. -/
  | next
  /-- RB <- RB + d. -/
  | adjust (d : Int)
  /-- Terminate the instance. -/
  | halt
deriving DecidableEq, Repr

/-- The outcome of a step (00_scope.md R16, 42_dispatch_step.md R103, R102). -/
inductive StepOutcome where
  | ok | awaitInput | halted | fault
deriving DecidableEq, Repr

/-- STATUS after a step with an outcome (42_dispatch_step.md R105). -/
def StepOutcome.status : StepOutcome → Status
  | .ok => .running
  | .awaitInput => .awaitingInput
  | .halted => .halted
  | .fault => .faulted

/-- The outcome column of the commit table (42_dispatch_step.md R103). -/
def Effect.outcome : Effect → StepOutcome
  | .store _ _ => .ok
  | .inputStore _ _ => .ok
  | .await => .awaitInput
  | .emit _ => .ok
  | .jump _ => .ok
  | .next => .ok
  | .adjust _ => .ok
  | .halt => .halted

/-- The numeric code of a STATUS state (10_state.md R27). -/
def Status.code : Status → Nat
  | .running => 0
  | .awaitingInput => 1
  | .halted => 2
  | .faulted => 3

/-- The numeric code of a fault cause (60_exceptions.md R125). -/
def causeCode : Cause → Nat
  | .unknownOpcode => 1
  | .invalidModeDigit => 2
  | .immediateWrite => 3
  | .negativeAddress => 4
  | .opcodeOutOfRange => 5

/-- IP past an instruction of arity n: `p + 1 + n`, in ℤ, no wrap (10_state.md R20, R21). -/
def advance (n : Nat) (s : State) : State := s.withIp (s.ip + 1 + n)

/-- Commit of a step at IP = p whose class has arity n: all its writes at once, row by row as the table of
42_dispatch_step.md R103 has them. -/
def commit (e : Effect) (n : Nat) (s : State) : State :=
  match e with
  | .store a v => ((advance n s).withMem (s.mem.write a v)).withStatus e.outcome.status
  | .inputStore a v =>
    (((advance n s).withMem (s.mem.write a v)).withInQ s.inQ.tail).withStatus e.outcome.status
  | .await => s.withStatus e.outcome.status
  | .emit v => ((advance n s).withOutQ (s.outQ ++ [v])).withStatus e.outcome.status
  | .jump t => (s.withIp t).withStatus e.outcome.status
  | .next => (advance n s).withStatus e.outcome.status
  | .adjust d => ((advance n s).withRb (s.rb + d)).withStatus e.outcome.status
  | .halt => (advance n s).withStatus e.outcome.status

/-- Fault entry: nothing of the step is committed, STATUS becomes Faulted, and FAULTREC receives the cause, IP, the
opcode cell (none for a fault of the fetch), the position and the address (60_exceptions.md R133, 42_dispatch_step.md
R102, 10_state.md R30). There is no handler to go to, and nothing else changes. -/
def enterFault (op : Option Int) (r : FaultReport) (s : State) : State :=
  (s.withFaultRec (some ⟨r.cause, s.ip, op, r.pos, r.addr⟩)).withStatus StepOutcome.fault.status

/-- A step that ends in a fault is a next state (log 2). -/
def raiseFault (op : Option Int) (r : FaultReport) (s : State) : Result := .next (enterFault op r s)

/-- The end of a meaning: the effect committed, or the fault of its operands entered, with the opcode cell op in the
record (42_dispatch_step.md R100). -/
def conclude (op : Int) (n : Nat) (e : Except FaultReport Effect) (s : State) : Result :=
  match e with
  | .error r => raiseFault (some op) r s
  | .ok eff => .next (commit eff n s)

/-- A step requested while STATUS is not Running has no effect (42_dispatch_step.md R106, 60_exceptions.md R136;
DEDUCED, log 3). -/
def stepNotEnabled (s : State) : Result := .next s

/-- The host appends a value to InQ; an AwaitingInput instance becomes Running, everything else is unchanged
(10_state.md R29, 60_exceptions.md R136). It is the machine's only resumption (R135). -/
def pushInput (v : Int) (s : State) : State :=
  let t := s.withInQ (s.inQ ++ [v])
  match s.status with
  | .awaitingInput => t.withStatus .running
  | .running => t
  | .halted => t
  | .faulted => t

end Sys2Proof.Machine
end

