-- ==== Sys2Proof/Machine/Operands.lean ====
section
/-! DEFINITION. The resolver (41_resolver.md) and the operand routing of the dispatch multiplexer
(42_dispatch_step.md R96): every operand is resolved, in ascending position, before the behaviour is looked at, and the
first fault ends the step (R97). The relative base is the one at the start of the step (41_resolver.md R92). -/

namespace Sys2Proof.Machine

/-- The effective address of an operand in a memory mode; Immediate has none (41_resolver.md R84). -/
def effectiveAddress (o : Operand) (rb : Int) : Option Int :=
  match o.mode with
  | .indirect => some o.raw
  | .immediate => none
  | .relative => some (o.raw + rb)

/-- An effective address as an address, or NegativeAddress with the position and the address (41_resolver.md R90). -/
def checkAddress (pos : Fin 4) (a : Int) : Except FaultReport Nat :=
  if a < 0 then .error ⟨.negativeAddress, pos, some a⟩ else .ok a.toNat

/-- `resolveRead(raw, pos, mode)` (41_resolver.md R85): Immediate never touches memory (R86). -/
def resolveRead (pos : Fin 4) (o : Operand) (rb : Int) (m : Memory) : Except FaultReport Int :=
  match effectiveAddress o rb with
  | none => .ok o.raw
  | some a =>
    match checkAddress pos a with
    | .error r => .error r
    | .ok a => .ok (m.read a)

/-- `resolveWriteAddress(raw, pos, mode)` (41_resolver.md R87), the same for every class with a write operand (R91).
Its Immediate arm is the resolver's own contract and is never reached in a step (R89; log 7). -/
def resolveWriteAddress (pos : Fin 4) (o : Operand) (rb : Int) : Except FaultReport Nat :=
  match effectiveAddress o rb with
  | none => .error ⟨.immediateWrite, pos, none⟩
  | some a => checkAddress pos a

/-- Routing of Output and AdjustRelativeBase: operand 1 read (42_dispatch_step.md R96). -/
def routeRead (a : Operand) (s : State) (behave : Int → Effect) : Except FaultReport Effect :=
  match resolveRead 1 a s.rb s.mem with
  | .error r => .error r
  | .ok v1 => .ok (behave v1)

/-- Routing of Input: operand 1 as a write address, with the head of InQ, none when it is empty
(42_dispatch_step.md R94, R96). -/
def routeInput (a : Operand) (s : State) (behave : Nat → Option Int → Effect) : Except FaultReport Effect :=
  match resolveWriteAddress 1 a s.rb with
  | .error r => .error r
  | .ok wa => .ok (behave wa s.inQ.head?)

/-- Routing of the jumps: operands 1 and 2 read, both whether or not the jump is taken (42_dispatch_step.md R96,
R97). -/
def routeReadRead (a b : Operand) (s : State) (behave : Int → Int → Effect) : Except FaultReport Effect :=
  match resolveRead 1 a s.rb s.mem with
  | .error r => .error r
  | .ok v1 =>
    match resolveRead 2 b s.rb s.mem with
    | .error r => .error r
    | .ok v2 => .ok (behave v1 v2)

/-- Routing of Add, Multiply, LessThan and Equals: operands 1 and 2 read, operand 3 as a write address
(42_dispatch_step.md R96). -/
def routeReadReadWrite (a b c : Operand) (s : State) (behave : Int → Int → Nat → Effect) :
    Except FaultReport Effect :=
  match resolveRead 1 a s.rb s.mem with
  | .error r => .error r
  | .ok v1 =>
    match resolveRead 2 b s.rb s.mem with
    | .error r => .error r
    | .ok v2 =>
      match resolveWriteAddress 3 c s.rb with
      | .error r => .error r
      | .ok wa => .ok (behave v1 v2 wa)

end Sys2Proof.Machine
end

