-- ==== Sys2Proof/Machine/Flags.lean ====
section
/-! DEFINITION. The block has no flags or condition codes (10_state.md R31). What stands in their place: comparisons
give a cell of 1 or 0 (46_compare.md), and jumps test a resolved value (45_jumps.md). -/

namespace Sys2Proof.Machine

/-- The cell a comparison writes: 1 if it holds, else 0 (46_compare.md R121, R122). -/
def truthCell (holds : Bool) : Int := if holds then 1 else 0

/-- Whether a condition operand counts as true: any non-zero value, negative included (45_jumps.md R119, R120). -/
def conditionTrue (v : Int) : Bool := v ≠ 0

end Sys2Proof.Machine
end

