-- ==== Sys2Proof/Machine/Arithmetic.lean ====
section
/-! DEFINITION. Add and Multiply (43_arithmetic.md): exact arithmetic in ℤ (R113). -/

namespace Sys2Proof.Machine

/-- Behaviour of Add (43_arithmetic.md R114). -/
def behaveAdd (v1 v2 : Int) (wa : Nat) : Effect := .store wa (v1 + v2)

/-- ADD (43_arithmetic.md R114). -/
def execAdd (a b c : Operand) (s : State) : Result :=
  conclude (opcodeCell (.add a b c)) InstrClass.add.arity (routeReadReadWrite a b c s behaveAdd) s

/-- Behaviour of Multiply (43_arithmetic.md R115). -/
def behaveMultiply (v1 v2 : Int) (wa : Nat) : Effect := .store wa (v1 * v2)

/-- MUL (43_arithmetic.md R115). -/
def execMultiply (a b c : Operand) (s : State) : Result :=
  conclude (opcodeCell (.multiply a b c)) InstrClass.multiply.arity (routeReadReadWrite a b c s behaveMultiply) s

end Sys2Proof.Machine
end

