-- ==== Sys2Proof/Machine/BaseHalt.lean ====
section
/-! DEFINITION. AdjustRelativeBase and Halt (47_base_halt.md). Neither is privileged: the block has one mode
(60_exceptions.md R138). -/

namespace Sys2Proof.Machine

/-- Behaviour of AdjustRelativeBase; no fault arises from the new base, negative or not (47_base_halt.md R123). -/
def behaveAdjustRelativeBase (v1 : Int) : Effect := .adjust v1

/-- ARB: a Relative operand is read with the old base (47_base_halt.md R123). -/
def execAdjustRelativeBase (a : Operand) (s : State) : Result :=
  conclude (opcodeCell (.adjustRelativeBase a)) InstrClass.adjustRelativeBase.arity
    (routeRead a s behaveAdjustRelativeBase) s

/-- Behaviour of Halt (47_base_halt.md R124). -/
def behaveHalt : Effect := .halt

/-- HLT (47_base_halt.md R124). -/
def execHalt (s : State) : Result :=
  conclude (opcodeCell .halt) InstrClass.halt.arity (.ok behaveHalt) s

end Sys2Proof.Machine
end

