-- ==== Sys2Proof/Machine/Compare.lean ====
section
/-! DEFINITION. The comparisons (46_compare.md): of mathematical integers; the result is a cell, no flag is set. -/

namespace Sys2Proof.Machine

/-- Behaviour of LessThan: signed order (46_compare.md R121). -/
def behaveLessThan (v1 v2 : Int) (wa : Nat) : Effect := .store wa (truthCell (v1 < v2))

/-- LT (46_compare.md R121). -/
def execLessThan (a b c : Operand) (s : State) : Result :=
  conclude (opcodeCell (.lessThan a b c)) InstrClass.lessThan.arity (routeReadReadWrite a b c s behaveLessThan) s

/-- Behaviour of Equals (46_compare.md R122). -/
def behaveEquals (v1 v2 : Int) (wa : Nat) : Effect := .store wa (truthCell (v1 = v2))

/-- EQ (46_compare.md R122). -/
def execEquals (a b c : Operand) (s : State) : Result :=
  conclude (opcodeCell (.equals a b c)) InstrClass.equals.arity (routeReadReadWrite a b c s behaveEquals) s

end Sys2Proof.Machine
end

