-- ==== Sys2Proof/Machine/InputOutput.lean ====
section
/-! DEFINITION. Input and Output (44_io.md). -/

namespace Sys2Proof.Machine

/-- Behaviour of Input: the write address is resolved before the queue is looked at; an empty queue suspends
(44_io.md R116). -/
def behaveInput (wa : Nat) (inHead : Option Int) : Effect :=
  match inHead with
  | none => .await
  | some v => .inputStore wa v

/-- IN (44_io.md R116). -/
def execInput (a : Operand) (s : State) : Result :=
  conclude (opcodeCell (.input a)) InstrClass.input.arity (routeInput a s behaveInput) s

/-- Behaviour of Output; it never blocks (44_io.md R117, 42_dispatch_step.md R108). -/
def behaveOutput (v1 : Int) : Effect := .emit v1

/-- OUT (44_io.md R117). -/
def execOutput (a : Operand) (s : State) : Result :=
  conclude (opcodeCell (.output a)) InstrClass.output.arity (routeRead a s behaveOutput) s

end Sys2Proof.Machine
end

