-- ==== Sys2Proof/Machine/Jumps.lean ====
section
/-! DEFINITION. The conditional jumps (45_jumps.md). A target is any integer; a negative one is not checked here but
faults at the next fetch (R118). -/

namespace Sys2Proof.Machine

/-- Behaviour of JumpIfTrue (45_jumps.md R119). -/
def behaveJumpIfTrue (v1 v2 : Int) : Effect := if conditionTrue v1 then .jump v2 else .next

/-- JT (45_jumps.md R119). -/
def execJumpIfTrue (a b : Operand) (s : State) : Result :=
  conclude (opcodeCell (.jumpIfTrue a b)) InstrClass.jumpIfTrue.arity (routeReadRead a b s behaveJumpIfTrue) s

/-- Behaviour of JumpIfFalse (45_jumps.md R120). -/
def behaveJumpIfFalse (v1 v2 : Int) : Effect := if conditionTrue v1 then .next else .jump v2

/-- JF (45_jumps.md R120). -/
def execJumpIfFalse (a b : Operand) (s : State) : Result :=
  conclude (opcodeCell (.jumpIfFalse a b)) InstrClass.jumpIfFalse.arity (routeReadRead a b s behaveJumpIfFalse) s

end Sys2Proof.Machine
end

