-- ==== Sys2Proof/Machine/Fetch.lean ====
section
/-! DEFINITION. The fetch half of a step (42_dispatch_step.md R100, R101, R95), and where a word of the opcode table
stands for the next fetch. -/

namespace Sys2Proof.Machine

/-- A fault before an instruction is known: the opcode cell for the record, none when the fetch itself faulted
(10_state.md R30), and the report. -/
structure FetchFault where
  opcode : Option Int
  report : FaultReport
deriving DecidableEq, Repr

/-- Fetch at IP, decode, and the operand cells `MemRead(p + k, 1)` for k = 1..arity (42_dispatch_step.md R100, R95). A
negative IP faults with position 0 and no opcode (R101). -/
def fetchInstr (s : State) : Except FetchFault Instr :=
  if s.ip < 0 then .error ⟨none, ⟨.negativeAddress, 0, some s.ip⟩⟩
  else
    match decodeCell (s.mem.read s.ip.toNat) with
    | .error r => .error ⟨some (s.mem.read s.ip.toNat), r⟩
    | .ok d => .ok (assemble d (fun k => s.mem.read (s.ip.toNat + k)))

/-- A step of a Running instance (42_dispatch_step.md R100). -/
def stepRunning (s : State) : Result :=
  match fetchInstr s with
  | .error f => raiseFault f.opcode f.report s
  | .ok i => exec i s

/-- A list of cells written at ascending addresses from a. -/
def writeCells : Nat → List Int → Memory → Memory
  | _, [], m => m
  | a, v :: vs, m => writeCells (a + 1) vs (m.write a v)

/-- The state with cells stored where the next step fetches, and able to take that step: Running, at a non-negative
IP. On a state that can step already, only those cells change (DESIGN CHOICE, log 10). -/
def placeAtFetch (cells : List Int) (s : State) : State :=
  let p := s.ip.toNat
  ((s.withIp p).withMem (writeCells p cells s.mem)).withStatus .running

end Sys2Proof.Machine
end

