-- ==== Sys2Proof/Machine/Step.lean ====
section
/-! DEFINITION. One step of the sequencer (42_dispatch_step.md R100), enabled only when STATUS is Running (R106). -/

namespace Sys2Proof.Machine

/-- A step issued by the host: of a Running instance it runs one instruction, of any other it has no effect (R106). -/
def step (s : State) : Host.Outcome State Fault Refusal :=
  match s.status with
  | .running => stepRunning s
  | .awaitingInput => stepNotEnabled s
  | .halted => stepNotEnabled s
  | .faulted => stepNotEnabled s

/-- The state with an opcode table row's word stored where step fetches its next instruction, operand cells 0. -/
def State.withFetchWord (s : State) (nbits w : Nat) : State := placeAtFetch (tableCells nbits w) s

end Sys2Proof.Machine
end

