-- ==== Sys2Proof/Machine/HostActions.lean ====
section
/-! DEFINITION. What the host can do to an instance (60_exceptions.md R136), each action between two steps (R107;
log 11). Reading STATUS and FAULTREC is the state's fields; stopping is taking no action. -/

namespace Sys2Proof.Machine

/-- Reset with a program image and an initial input sequence, at any time, from any state: nothing survives it
(70_reset_and_hazards.md R143 to R145). -/
def hostReset (image inputs : List Int) : State :=
  (State.reset.withMem (Memory.load 0 image)).withInQ inputs

/-- Removal of the n oldest values from OutQ, all of them when there are fewer (60_exceptions.md R136; log 12). -/
def takeOutput (n : Nat) (s : State) : State := s.withOutQ (s.outQ.drop n)

/-- The values that `takeOutput` hands to the host, in the order they were emitted (60_exceptions.md R136). -/
def takenOutput (n : Nat) (s : State) : List Int := s.outQ.take n

/-- The host's actions (60_exceptions.md R136). -/
inductive HostAction where
  /-- Load a program image and reset. -/
  | reset (image inputs : List Int)
  /-- Issue a step. -/
  | issueStep
  /-- Append a value to InQ. -/
  | push (v : Int)
  /-- Remove the n oldest values from OutQ. -/
  | take (n : Nat)
deriving DecidableEq, Repr

/-- One host action. -/
def act (a : HostAction) (s : State) : Result :=
  match a with
  | .reset image inputs => .next (hostReset image inputs)
  | .issueStep => step s
  | .push v => .next (pushInput v s)
  | .take n => .next (takeOutput n s)

/-- A run under the host's schedule, the launch input of 00_scope.md R11: the schedule says when inputs arrive and
when steps are issued, and ends when the host stops. -/
def runSchedule : List HostAction → State → Result
  | [], s => .next s
  | a :: as, s =>
    match act a s with
    | .next t => runSchedule as t
    | .fault r => .fault r
    | .refused r => .refused r

end Sys2Proof.Machine
end

