-- ==== Sys2Proof/Safety.lean ====
section
/-! DEFINITION. The terms claims are stated in: what an operand denotes, written from the table of 30_encoding.md R59
and not from the resolver; how a run stands (42_dispatch_step.md R112); and the invariant of the state. -/

namespace Sys2Proof.Machine

/-- The operand can be read: Immediate always, the memory modes when the address is no negative number
(30_encoding.md R59). -/
abbrev readable (o : Operand) (s : State) : Prop :=
  match o.mode with
  | .indirect => 0 ≤ o.raw
  | .immediate => True
  | .relative => 0 ≤ o.raw + s.rb

/-- The value of a readable operand (30_encoding.md R59). -/
def operandValue (o : Operand) (s : State) : Int :=
  match o.mode with
  | .indirect => s.mem.read o.raw.toNat
  | .immediate => o.raw
  | .relative => s.mem.read (o.raw + s.rb).toNat

/-- The operand can be written through: a memory mode whose address is no negative number (30_encoding.md R59). -/
abbrev writable (o : Operand) (s : State) : Prop :=
  match o.mode with
  | .indirect => 0 ≤ o.raw
  | .immediate => False
  | .relative => 0 ≤ o.raw + s.rb

/-- The address a memory-mode operand names, negative or not (30_encoding.md R59). -/
def operandAddress (o : Operand) (s : State) : Int :=
  match o.mode with
  | .indirect => o.raw
  | .immediate => o.raw
  | .relative => o.raw + s.rb

/-- A run that ended well (42_dispatch_step.md R112). -/
abbrev endedWell (s : State) : Prop := s.status = .halted

/-- A run that ended badly (42_dispatch_step.md R112). -/
abbrev endedBadly (s : State) : Prop := s.status = .faulted

/-- A run that waits for the host; it is not ended (42_dispatch_step.md R112). -/
abbrev waiting (s : State) : Prop := s.status = .awaitingInput ∧ s.inQ = []

/-- A step is enabled (42_dispatch_step.md R106). -/
abbrev stepEnabled (s : State) : Prop := s.status = .running

/-- The cells from IP on, as many as the longest instruction has (30_encoding.md R60). -/
def cellsAtIp (s : State) : List Int :=
  [s.mem.read s.ip.toNat, s.mem.read (s.ip.toNat + 1), s.mem.read (s.ip.toNat + 2), s.mem.read (s.ip.toNat + 3)]

/-- The instruction i stands at IP. -/
abbrev instrAtIp (i : Instr) (s : State) : Prop := 0 ≤ s.ip ∧ ∃ rest, decode (cellsAtIp s) = .ok (i, rest)

/-- The mode digit at position j is legal for the class: within the arity a mode, and not Immediate at the write
position; above it 0 (60_exceptions.md R132 item 4). -/
abbrev positionLegal (c : InstrClass) (op : Nat) (j : Fin 4) : Prop :=
  (j.val ≤ c.arity → modeDigit op j.val ≤ 2 ∧ (c.wpos = some j → modeDigit op j.val ≠ 1)) ∧
  (c.arity < j.val → modeDigit op j.val = 0)

/-- The record is one the step at IP can have left (10_state.md R30, 60_exceptions.md R125): its IP is the machine's,
its opcode the cell there, or none when IP is negative, an address is given exactly for NegativeAddress and is
negative, and position 0 is for faults of the fetch or of the opcode cell as a whole. -/
structure FaultRecord.describes (r : FaultRecord) (s : State) : Prop where
  ip : r.ip = s.ip
  opcode : r.opcode = if s.ip < 0 then none else some (s.mem.read s.ip.toNat)
  addr_some : r.addr.isSome ↔ r.cause = .negativeAddress
  addr_negative : ∀ a, r.addr = some a → a < 0
  pos_zero : r.pos = 0 ↔ s.ip < 0 ∨ r.cause = .unknownOpcode ∨ r.cause = .opcodeOutOfRange

/-- The invariant of the state: memory canonical (log 1); FAULTREC holds a record exactly when Faulted, and one that
describes the faulting step (10_state.md R30, 60_exceptions.md R134); an AwaitingInput instance has an empty InQ and an
Input at IP (10_state.md R27, R29, R36). -/
structure StateInvariant (s : State) : Prop where
  memory : s.mem.wf
  record_iff : s.faultRec.isSome ↔ s.status = .faulted
  record : ∀ r, s.faultRec = some r → r.describes s
  waiting : s.status = .awaitingInput → s.inQ = [] ∧ ∃ a, instrAtIp (.input a) s

end Sys2Proof.Machine
end

