-- ==== Sys2Proof/Certificates/Slice0/Obligations.lean ====
section
/-! DEFINITION. The statements about the machine. Each docstring names the rule or section of spec/ it rests on. A
clause that rests on a decision of 92_eei_decisions.md (D<n>), which is the spec's own choice, or on a convention of
the model (log <n>) says so. -/

open Sys2Proof Sys2Proof.Machine

/-! ## Encoding and decoding -/

/-- Decoding the encoding of a well-formed instruction, whatever cells follow, gives it back with the cells that follow
(30_encoding.md, sections 1 to 4 and 6). -/
def Obligations.DecodeEncodeRoundTrip : Prop :=
  ∀ (i : Instr) (rest : List Int), i.wellFormed = true → decode (encode i ++ rest) = .ok (i, rest)

/-- What decodes is well formed, and its encoding is exactly the cells taken: no cell has two readings, no digit is
dropped, `1 + arity` cells are taken (30_encoding.md, sections 1, 3 and 5; D4 for the digits above the arity). -/
def Obligations.DecodedCellsAreTheEncoding : Prop :=
  ∀ (cells : List Int) (i : Instr) (rest : List Int), decode cells = .ok (i, rest) →
    i.wellFormed = true ∧ cells = encode i ++ rest ∧ (encode i).length = 1 + i.cls.arity

/-- Opcode cells written out from the patterns of 30_encoding.md R61, one for each class, decode to their
instructions. -/
def Obligations.OpcodeMapWordsDecode : Prop :=
  decode [20101, 5, 6, 7] = .ok (.add ⟨.immediate, 5⟩ ⟨.indirect, 6⟩ ⟨.relative, 7⟩, []) ∧
  decode [1202, 5, 6, 7] = .ok (.multiply ⟨.relative, 5⟩ ⟨.immediate, 6⟩ ⟨.indirect, 7⟩, []) ∧
  decode [203, -5] = .ok (.input ⟨.relative, -5⟩, []) ∧
  decode [104, -7] = .ok (.output ⟨.immediate, -7⟩, []) ∧
  decode [2105, 1, 2] = .ok (.jumpIfTrue ⟨.immediate, 1⟩ ⟨.relative, 2⟩, []) ∧
  decode [1006, 9, 0] = .ok (.jumpIfFalse ⟨.indirect, 9⟩ ⟨.immediate, 0⟩, []) ∧
  decode [21107, 1, 2, 0] = .ok (.lessThan ⟨.immediate, 1⟩ ⟨.immediate, 2⟩ ⟨.relative, 0⟩, []) ∧
  decode [8, 1, 2, 3] = .ok (.equals ⟨.indirect, 1⟩ ⟨.indirect, 2⟩ ⟨.indirect, 3⟩, []) ∧
  decode [209, -2] = .ok (.adjustRelativeBase ⟨.relative, -2⟩, []) ∧
  decode [99] = .ok (.halt, [])

/-- 40_decoder.md R73: the mode digit of operand n is the digit at decimal place n + 2 of the opcode's numeral; absent
leading digits are 0 and decode as Indirect. -/
def Obligations.ModeDigitsAreDecimalPlaces : Prop :=
  (∀ num d1 d2 d3 : Nat, num < 100 → d1 < 10 → d2 < 10 → d3 < 10 →
    modeDigit (num + 100 * d1 + 1000 * d2 + 10000 * d3) 1 = d1 ∧
    modeDigit (num + 100 * d1 + 1000 * d2 + 10000 * d3) 2 = d2 ∧
    modeDigit (num + 100 * d1 + 1000 * d2 + 10000 * d3) 3 = d3) ∧
  ∀ op n : Nat, 1 ≤ n → n ≤ 3 → op < 10 ^ (n + 1) → modeDigit op n = 0 ∧ modeOf op n = some .indirect

/-- 30_encoding.md R55: the instruction number is `opcode mod 100`, and no other part of the cell selects the
class. -/
def Obligations.LowTwoDigitsSelectClass : Prop :=
  (∀ (op : Int) (d : Descriptor), decodeCell op = .ok d →
    0 ≤ op % 100 ∧ op % 100 ≤ 99 ∧ (d.cls.number : Int) = op % 100) ∧
  ∀ (op op' : Int) (d d' : Descriptor), decodeCell op = .ok d → decodeCell op' = .ok d' → op % 100 = op' % 100 →
    d.cls = d'.cls

/-- Items 2 to 4 of the fault priority (60_exceptions.md section 2; the order is the spec's own, D3, D4, D5): the range
comes first, then the class, then the first illegal position; and decoding succeeds, with the digits' modes, exactly
when no position is illegal. -/
def Obligations.DecoderReportsFirstFault : Prop :=
  (∀ op : Int, op < 0 ∨ 99999 < op → decodeCell op = .error ⟨.opcodeOutOfRange, 0, none⟩) ∧
  (∀ op : Nat, op ≤ 99999 → InstrClass.ofNumber (op % 100) = none →
    decodeCell op = .error ⟨.unknownOpcode, 0, none⟩) ∧
  (∀ (op : Nat) (c : InstrClass) (k : Fin 4), op ≤ 99999 → InstrClass.ofNumber (op % 100) = some c → 0 < k →
    (∀ j : Fin 4, 0 < j → j < k → positionLegal c op j) → ¬ positionLegal c op k →
    decodeCell op =
      .error ⟨if k.val ≤ c.arity ∧ modeDigit op k.val = 1 then .immediateWrite else .invalidModeDigit, k, none⟩) ∧
  ∀ (op : Nat) (c : InstrClass), op ≤ 99999 → InstrClass.ofNumber (op % 100) = some c →
    (∀ j : Fin 4, 0 < j → positionLegal c op j) →
    ∃ d, decodeCell op = .ok d ∧ d.cls = c ∧ d.mode1.digit = modeDigit op 1 ∧ d.mode2.digit = modeDigit op 2 ∧
      d.mode3.digit = modeDigit op 3

/-- 60_exceptions.md R128: an Immediate write target is what raises ImmediateWrite, in the decoder and in the
resolver, and only Add, Multiply, Input, LessThan and Equals can raise it. -/
def Obligations.ImmediateWriteOnlyFromWriters : Prop :=
  (∀ (op : Int) (r : FaultReport), decodeCell op = .error r → r.cause = .immediateWrite →
    modeDigit op.toNat r.pos.val = 1 ∧ ∃ c, InstrClass.ofNumber (op.toNat % 100) = some c ∧ c.wpos = some r.pos ∧
      c ∈ [InstrClass.add, .multiply, .input, .lessThan, .equals]) ∧
  ∀ (i : Instr) (s t : State) (r : FaultRecord), s.faultRec = none → exec i s = .next t → t.faultRec = some r →
    r.cause = .immediateWrite →
    i.cls ∈ [InstrClass.add, .multiply, .input, .lessThan, .equals] ∧
      ∃ o, i.writeOperand = some o ∧ o.mode = .immediate

/-! ## The resolver -/

/-- 41_resolver.md R85: `resolveRead` in each mode. -/
def Obligations.ResolveReadInEachMode : Prop :=
  ∀ (pos : Fin 4) (raw rb : Int) (m : Memory),
    resolveRead pos ⟨.indirect, raw⟩ rb m =
      (if raw < 0 then .error ⟨.negativeAddress, pos, some raw⟩ else .ok (m.read raw.toNat)) ∧
    resolveRead pos ⟨.immediate, raw⟩ rb m = .ok raw ∧
    resolveRead pos ⟨.relative, raw⟩ rb m =
      (if raw + rb < 0 then .error ⟨.negativeAddress, pos, some (raw + rb)⟩ else .ok (m.read (raw + rb).toNat))

/-- 41_resolver.md R87: `resolveWriteAddress` in each mode. -/
def Obligations.ResolveWriteAddressInEachMode : Prop :=
  ∀ (pos : Fin 4) (raw rb : Int),
    resolveWriteAddress pos ⟨.indirect, raw⟩ rb =
      (if raw < 0 then .error ⟨.negativeAddress, pos, some raw⟩ else .ok raw.toNat) ∧
    resolveWriteAddress pos ⟨.relative, raw⟩ rb =
      (if raw + rb < 0 then .error ⟨.negativeAddress, pos, some (raw + rb)⟩ else .ok (raw + rb).toNat) ∧
    resolveWriteAddress pos ⟨.immediate, raw⟩ rb = .error ⟨.immediateWrite, pos, none⟩

/-- A value written at the address an operand resolves to is the value read back through the same operand and base, at
any position (41_resolver.md section 6). The premise is the canonical form of memory, an invariant (log 1). -/
def Obligations.WriteThenReadAgrees : Prop :=
  ∀ (p q : Fin 4) (o : Operand) (rb v : Int) (m : Memory) (a : Nat), m.wf → resolveWriteAddress p o rb = .ok a →
    resolveRead q o rb (m.write a v) = .ok v

/-- 41_resolver.md R91: whichever class writes, its target is the one address its write operand resolves to, `raw + RB`
in Relative mode and `raw` in Indirect mode; Input is no exception. -/
def Obligations.WriteResolutionIsUniform : Prop :=
  ∀ (i : Instr) (o : Operand) (s t : State), i.writeOperand = some o → exec i s = .next t → t.status = .running →
    (o.mode = .relative ∧ 0 ≤ o.raw + s.rb ∧ ∃ v, t.mem = s.mem.write (o.raw + s.rb).toNat v) ∨
    (o.mode = .indirect ∧ 0 ≤ o.raw ∧ ∃ v, t.mem = s.mem.write o.raw.toNat v)

/-! ## Memory -/

/-- 20_memory.md R39: a read returns the last value written to the address, else the image's cell, else 0. -/
def Obligations.ReadReturnsLastWrite : Prop :=
  ∀ (image : List Int) (writes : List (Nat × Int)) (a : Nat),
    (writes.foldl (fun m w => m.write w.1 w.2) (hostReset image []).mem).read a =
      match writes.reverse.find? (fun w => w.1 == a) with
      | some w => w.2
      | none => if h : a < image.length then image[a] else 0

/-- 70_reset_and_hazards.md R144: reset with an image places w_i at address i and 0 beyond, for any integers. -/
def Obligations.ResetPlacesImage : Prop :=
  ∀ image inputs : List Int,
    (∀ (a : Nat) (h : a < image.length), (hostReset image inputs).mem.read a = image[a]) ∧
    ∀ a : Nat, image.length ≤ a → (hostReset image inputs).mem.read a = 0

/-- Canonical memories that read the same are the same data (the model's representation, log 1, of the total map of
10_state.md section 7). -/
def Obligations.CanonicalMemoryIsItsReads : Prop :=
  ∀ m m' : Memory, m.wf → m'.wf → (∀ a, m.read a = m'.read a) → m = m'

/-! ## What each instruction does -/

/-- ADD completes whenever its operands can be read and written, and stores the exact sum (43_arithmetic.md section
of R114, pseudocode). -/
def Obligations.AddStoresExactSum : Prop :=
  ∀ (a b c : Operand) (s : State), readable a s → readable b s → writable c s →
    exec (.add a b c) s = .next { s with
      mem := s.mem.write (operandAddress c s).toNat (operandValue a s + operandValue b s)
      ip := s.ip + 4
      status := .running }

/-- MUL completes whenever its operands can be read and written, and stores the exact product (43_arithmetic.md
section of R115, pseudocode). -/
def Obligations.MultiplyStoresExactProduct : Prop :=
  ∀ (a b c : Operand) (s : State), readable a s → readable b s → writable c s →
    exec (.multiply a b c) s = .next { s with
      mem := s.mem.write (operandAddress c s).toNat (operandValue a s * operandValue b s)
      ip := s.ip + 4
      status := .running }

/-- LT completes whenever its operands can be read and written, and stores 1 if op1 < op2 in the order of the integers,
else 0 (46_compare.md section of R121, pseudocode). -/
def Obligations.LessThanStoresOneOrZero : Prop :=
  ∀ (a b c : Operand) (s : State), readable a s → readable b s → writable c s →
    exec (.lessThan a b c) s = .next { s with
      mem := s.mem.write (operandAddress c s).toNat (if operandValue a s < operandValue b s then 1 else 0)
      ip := s.ip + 4
      status := .running }

/-- EQ completes whenever its operands can be read and written, and stores 1 if op1 = op2, else 0 (46_compare.md
section of R122, pseudocode). -/
def Obligations.EqualsStoresOneOrZero : Prop :=
  ∀ (a b c : Operand) (s : State), readable a s → readable b s → writable c s →
    exec (.equals a b c) s = .next { s with
      mem := s.mem.write (operandAddress c s).toNat (if operandValue a s = operandValue b s then 1 else 0)
      ip := s.ip + 4
      status := .running }

/-- IN with a value available completes whenever its target can be written: it stores the head of InQ and consumes that
one value (44_io.md section of R116, pseudocode; D20). -/
def Obligations.InputStoresQueueHead : Prop :=
  ∀ (a : Operand) (s : State) (v : Int) (q : List Int), writable a s → s.inQ = v :: q →
    exec (.input a) s = .next { s with
      mem := s.mem.write (operandAddress a s).toNat v
      inQ := q
      ip := s.ip + 2
      status := .running }

/-- 42_dispatch_step.md R104 and 60_exceptions.md R131: IN with an empty InQ commits only STATUS <- AwaitingInput and
sets no fault record; once the host pushes a value, the same instruction with the same raw operands completes. -/
def Obligations.InputSuspendsOnEmptyQueue : Prop :=
  ∀ (a : Operand) (s : State), writable a s → s.inQ = [] →
    exec (.input a) s = .next { s with status := .awaitingInput } ∧
    ∀ v : Int, exec (.input a) (pushInput v { s with status := .awaitingInput }) = .next { s with
      mem := s.mem.write (operandAddress a s).toNat v
      ip := s.ip + 2
      status := .running }

/-- OUT completes whenever its operand can be read: it appends the value to OutQ (44_io.md section of R117,
pseudocode; D21 for the unbounded channel). -/
def Obligations.OutputAppendsValue : Prop :=
  ∀ (a : Operand) (s : State), readable a s →
    exec (.output a) s = .next { s with outQ := s.outQ ++ [operandValue a s], ip := s.ip + 2, status := .running }

/-- JT completes whenever both operands can be read: IP is op2 if op1 is not 0, whatever op2 is, else IP + 3
(45_jumps.md section of R119, pseudocode; D6, D13). -/
def Obligations.JumpIfTrueSetsPointer : Prop :=
  ∀ (a b : Operand) (s : State), readable a s → readable b s →
    exec (.jumpIfTrue a b) s = .next { s with
      ip := if operandValue a s ≠ 0 then operandValue b s else s.ip + 3
      status := .running }

/-- JF completes whenever both operands can be read: IP is op2 if op1 is 0, whatever op2 is, else IP + 3 (45_jumps.md
section of R120, pseudocode; D6, D13). -/
def Obligations.JumpIfFalseSetsPointer : Prop :=
  ∀ (a b : Operand) (s : State), readable a s → readable b s →
    exec (.jumpIfFalse a b) s = .next { s with
      ip := if operandValue a s = 0 then operandValue b s else s.ip + 3
      status := .running }

/-- ARB completes whenever its operand can be read, with the old base: RB <- RB + op1, negative or not
(47_base_halt.md section of R123, pseudocode; D17). -/
def Obligations.AdjustAddsToRelativeBase : Prop :=
  ∀ (a : Operand) (s : State), readable a s →
    exec (.adjustRelativeBase a) s = .next { s with
      rb := s.rb + operandValue a s
      ip := s.ip + 2
      status := .running }

/-- HLT always completes: STATUS <- Halted, IP past it, nothing else (47_base_halt.md section of R124, pseudocode; D9
for the IP). -/
def Obligations.HaltTerminatesInstance : Prop :=
  ∀ s : State, exec .halt s = .next { s with ip := s.ip + 1, status := .halted }

/-- Swapping the two read operands of Add or Multiply, with their modes, changes nothing when both can be read
(43_arithmetic.md section of R113). -/
def Obligations.AddAndMultiplyCommute : Prop :=
  ∀ (a b c : Operand) (s : State), readable a s → readable b s → writable c s →
    exec (.add a b c) s = exec (.add b a c) s ∧ exec (.multiply a b c) s = exec (.multiply b a c) s

/-! ## Where instructions fault -/

/-- The operands of Add, Multiply, LessThan and Equals are resolved in ascending position and the first fault ends the
step (60_exceptions.md section 2, item 5; D2, D6, D11). The Immediate target is the resolver's own arm, which no decoded
instruction reaches (41_resolver.md section 4; log 7). -/
def Obligations.StoringOperandsFaultInOrder : Prop :=
  ∀ mk ∈ [Instr.add, Instr.multiply, Instr.lessThan, Instr.equals], ∀ (a b c : Operand) (s : State),
    (¬ readable a s → exec (mk a b c) s = .next { s with
      status := .faulted
      faultRec := some ⟨.negativeAddress, s.ip, some (opcodeCell (mk a b c)), 1, some (operandAddress a s)⟩ }) ∧
    (readable a s → ¬ readable b s → exec (mk a b c) s = .next { s with
      status := .faulted
      faultRec := some ⟨.negativeAddress, s.ip, some (opcodeCell (mk a b c)), 2, some (operandAddress b s)⟩ }) ∧
    (readable a s → readable b s → ¬ writable c s → c.mode ≠ .immediate → exec (mk a b c) s = .next { s with
      status := .faulted
      faultRec := some ⟨.negativeAddress, s.ip, some (opcodeCell (mk a b c)), 3, some (operandAddress c s)⟩ }) ∧
    (readable a s → readable b s → c.mode = .immediate → exec (mk a b c) s = .next { s with
      status := .faulted
      faultRec := some ⟨.immediateWrite, s.ip, some (opcodeCell (mk a b c)), 3, none⟩ })

/-- Both operands of a jump are resolved whether or not it is taken, so a negative address in the target of an untaken
jump faults (42_dispatch_step.md section 1 on eager resolution, the spec's decision D6; D11). -/
def Obligations.JumpOperandsFaultEvenUntaken : Prop :=
  ∀ mk ∈ [Instr.jumpIfTrue, Instr.jumpIfFalse], ∀ (a b : Operand) (s : State),
    (¬ readable a s → exec (mk a b) s = .next { s with
      status := .faulted
      faultRec := some ⟨.negativeAddress, s.ip, some (opcodeCell (mk a b)), 1, some (operandAddress a s)⟩ }) ∧
    (readable a s → ¬ readable b s → exec (mk a b) s = .next { s with
      status := .faulted
      faultRec := some ⟨.negativeAddress, s.ip, some (opcodeCell (mk a b)), 2, some (operandAddress b s)⟩ })

/-- Output and AdjustRelativeBase fault on a negative address, with nothing emitted or adjusted (44_io.md and
47_base_halt.md, exceptions; D2, D7, D11). -/
def Obligations.SingleReadFaultsOnNegativeAddress : Prop :=
  ∀ mk ∈ [Instr.output, Instr.adjustRelativeBase], ∀ (a : Operand) (s : State), ¬ readable a s →
    exec (mk a) s = .next { s with
      status := .faulted
      faultRec := some ⟨.negativeAddress, s.ip, some (opcodeCell (mk a)), 1, some (operandAddress a s)⟩ }

/-- An Input whose target is faulty faults whether or not InQ is empty, and consumes nothing (44_io.md, exceptions, the
spec's decision D12; D7, D11; log 7 for the Immediate target). -/
def Obligations.InputTargetFaultBeatsEmptyQueue : Prop :=
  ∀ (a : Operand) (s : State),
    (¬ writable a s → a.mode ≠ .immediate → exec (.input a) s = .next { s with
      status := .faulted
      faultRec := some ⟨.negativeAddress, s.ip, some (opcodeCell (.input a)), 1, some (operandAddress a s)⟩ }) ∧
    (a.mode = .immediate → exec (.input a) s = .next { s with
      status := .faulted
      faultRec := some ⟨.immediateWrite, s.ip, some (opcodeCell (.input a)), 1, none⟩ })

/-! ## Frames -/

/-- Frame of Add, Multiply, LessThan and Equals: RB, InQ and OutQ are unchanged; FAULTREC changes only with a fault; no
cell changes but the one the target resolves to, and none at all on a fault (42_dispatch_step.md section 3). -/
def Obligations.StoringInstructionsFrame : Prop :=
  ∀ mk ∈ [Instr.add, Instr.multiply, Instr.lessThan, Instr.equals], ∀ (a b c : Operand) (s t : State), s.mem.wf →
    exec (mk a b c) s = .next t →
    t.rb = s.rb ∧ t.inQ = s.inQ ∧ t.outQ = s.outQ ∧ (t.status = .running ∨ t.status = .faulted) ∧
    (t.status = .running → t.faultRec = s.faultRec ∧
      ∃ wa, resolveWriteAddress 3 c s.rb = .ok wa ∧ ∀ x, x ≠ wa → t.mem.read x = s.mem.read x) ∧
    (t.status = .faulted → t.ip = s.ip ∧ ∀ x, t.mem.read x = s.mem.read x)

/-- Frame of Input: RB and OutQ are unchanged; FAULTREC changes only with a fault; a completed Input changes one cell and
drops one queue value, a suspended or faulting one neither (42_dispatch_step.md section 3; D20). -/
def Obligations.InputFrame : Prop :=
  ∀ (a : Operand) (s t : State), s.mem.wf → exec (.input a) s = .next t →
    t.rb = s.rb ∧ t.outQ = s.outQ ∧ t.status ≠ .halted ∧
    (t.status ≠ .faulted → t.faultRec = s.faultRec) ∧
    (t.status = .running → t.inQ = s.inQ.tail ∧
      ∃ wa, resolveWriteAddress 1 a s.rb = .ok wa ∧ ∀ x, x ≠ wa → t.mem.read x = s.mem.read x) ∧
    (t.status ≠ .running → t.ip = s.ip ∧ t.inQ = s.inQ ∧ ∀ x, t.mem.read x = s.mem.read x)

/-- Frame of the instructions without a write operand, Output, the jumps, AdjustRelativeBase and Halt: no cell of memory
changes and no input is consumed; OutQ changes only by Output, RB only by AdjustRelativeBase, FAULTREC only with a fault,
and a fault changes nothing but STATUS and FAULTREC (42_dispatch_step.md section 3). -/
def Obligations.NonStoringInstructionsFrame : Prop :=
  ∀ (i : Instr) (s t : State), i.writeOperand = none → exec i s = .next t →
    (∀ x, t.mem.read x = s.mem.read x) ∧ t.inQ = s.inQ ∧
    (i.cls ≠ .output → t.outQ = s.outQ) ∧ (i.cls ≠ .adjustRelativeBase → t.rb = s.rb) ∧
    (t.status ≠ .faulted → t.faultRec = s.faultRec ∧ t.status = if i.cls = .halt then .halted else .running) ∧
    (t.status = .faulted → t.ip = s.ip ∧ t.rb = s.rb ∧ t.outQ = s.outQ)

/-! ## The step -/

/-- When the cells at IP decode to an instruction, the step of a Running instance is exec of it, at that very state
(42_dispatch_step.md section 3, the step). -/
def Obligations.StepRunsDecodedInstruction : Prop :=
  ∀ (s : State) (i : Instr) (rest : List Int), s.status = .running → 0 ≤ s.ip →
    decode (cellsAtIp s) = .ok (i, rest) → step s = exec i s

/-- When the opcode cell at IP does not decode, the step enters the decoder's fault with the cell and IP in the record,
and commits nothing else (42_dispatch_step.md section 3; D7, D11; log 2). -/
def Obligations.UndecodableCellFaults : Prop :=
  ∀ (s : State) (r : FaultReport), s.status = .running → 0 ≤ s.ip →
    decodeCell (s.mem.read s.ip.toNat) = .error r →
    step s = .next { s with
      status := .faulted
      faultRec := some ⟨r.cause, s.ip, some (s.mem.read s.ip.toNat), r.pos, none⟩ }

/-- A fetch at a negative IP faults with position 0, address IP and no opcode (42_dispatch_step.md section 3, the spec's
decision D13; D11; log 2). -/
def Obligations.NegativePointerFaultsAtFetch : Prop :=
  ∀ s : State, s.status = .running → s.ip < 0 →
    step s = .next { s with
      status := .faulted
      faultRec := some ⟨.negativeAddress, s.ip, none, 0, some s.ip⟩ }

/-- 30_encoding.md R63: a cell in range with an unknown instruction number selects no class, and the step that fetches it
faults with UnknownOpcode; no number of further steps retries it: wherever they lead, nothing has changed. -/
def Obligations.UnknownOpcodeIsFatal : Prop :=
  ∀ op : Int, 0 ≤ op → op ≤ 99999 → (op % 100 = 0 ∨ 10 ≤ op % 100 ∧ op % 100 ≤ 98) →
    InstrClass.ofNumber (op % 100).toNat = none ∧
    ∀ s : State, s.status = .running → 0 ≤ s.ip → s.mem.read s.ip.toNat = op →
      ∃ t r, step s = .next t ∧ t.status = .faulted ∧ t.faultRec = some r ∧ r.cause = .unknownOpcode ∧
        ∀ (k : Nat) (u : State), runSchedule (List.replicate k .issueStep) t = .next u → u = t

/-- A step requested of an instance that is not Running has no effect, however often it is requested
(42_dispatch_step.md section 3, 60_exceptions.md section 4, the spec's decision D23; that the model answers the same
state is its own convention, log 3). -/
def Obligations.StepsOfStoppedInstanceHaveNoEffect : Prop :=
  ∀ (s : State) (k : Nat), s.status ≠ .running →
    runSchedule (List.replicate k .issueStep) s = .next s

/-- Only a reset, or an input pushed to an AwaitingInput instance, makes a stopped instance Running again; a Faulted one
takes no step, and no step clears a fault record (60_exceptions.md section 3; log 3). -/
def Obligations.OnlyResetOrInputRevives : Prop :=
  (∀ (a : HostAction) (s t : State), act a s = .next t → s.status ≠ .running → t.status = .running →
    (∃ image inputs, a = .reset image inputs) ∨ (s.status = .awaitingInput ∧ ∃ v, a = .push v)) ∧
  (∀ s t : State, s.status = .faulted → step s = .next t → t = s) ∧
  ∀ s t : State, s.faultRec.isSome → step s = .next t → t.faultRec.isSome

/-- A fault leaves exactly the state before the step, plus STATUS and a record with the step's IP and its opcode cell
(60_exceptions.md section 3; D7, D11). -/
def Obligations.FaultsArePrecise : Prop :=
  ∀ s t : State, s.status = .running → step s = .next t → t.status = .faulted →
    ∃ r : FaultRecord, t = { s with status := .faulted, faultRec := some r } ∧ r.ip = s.ip ∧
      r.opcode = if s.ip < 0 then none else some (s.mem.read s.ip.toNat)

/-- A step that suspends ran an Input with an empty InQ and changed STATUS only; after the host pushes a value the next
step re-executes that Input and stores it (10_state.md section 4, the spec's decision D23; 42_dispatch_step.md
section 3; 70_reset_and_hazards.md section 3). -/
def Obligations.SuspendedInputResumes : Prop :=
  ∀ s t : State, s.status = .running → step s = .next t → t.status = .awaitingInput →
    t = { s with status := .awaitingInput } ∧ s.inQ = [] ∧ ∃ a, instrAtIp (.input a) s ∧
      ∀ v : Int, step (pushInput v t) = .next { s with
        mem := s.mem.write (operandAddress a s).toNat v
        ip := s.ip + 2 }

/-- IP after a step: `p + 1 + arity` for a class that is no jump, the target or `p + 3` for a jump, unchanged by a
suspension or a fault (10_state.md section 2; D7, D9). -/
def Obligations.PointerAdvanceOfAStep : Prop :=
  ∀ (s t : State) (i : Instr), s.status = .running → instrAtIp i s → step s = .next t →
    ((t.status = .awaitingInput ∨ t.status = .faulted) → t.ip = s.ip) ∧
    ((t.status = .running ∨ t.status = .halted) → i.cls.isJump = false → t.ip = s.ip + 1 + i.cls.arity) ∧
    (t.status = .running → i.cls.isJump = true →
      t.ip = s.ip + 3 ∨ ∃ b, i.operands[1]? = some b ∧ t.ip = operandValue b s)

/-- 10_state.md R24: every Relative resolution, read or write, goes through RB; and RB is mutated only by
AdjustRelativeBase, by its operand: no other step, no input push and no taking of outputs changes it. -/
def Obligations.OnlyAdjustMutatesRelativeBase : Prop :=
  (∀ (pos : Fin 4) (raw rb : Int) (m : Memory),
    resolveRead pos ⟨.relative, raw⟩ rb m = resolveRead pos ⟨.indirect, raw + rb⟩ rb m ∧
    resolveWriteAddress pos ⟨.relative, raw⟩ rb = resolveWriteAddress pos ⟨.indirect, raw + rb⟩ rb) ∧
  (∀ s t : State, step s = .next t → t.rb ≠ s.rb →
    ∃ a, instrAtIp (.adjustRelativeBase a) s ∧ t.rb = s.rb + operandValue a s) ∧
  (∀ (v : Int) (s : State), (pushInput v s).rb = s.rb) ∧
  ∀ (n : Nat) (s : State), (takeOutput n s).rb = s.rb

/-- A step changes a cell only by an instruction with a write operand, and only the cell that operand names (10_state.md
section 7, 20_memory.md section 4). The premise is the canonical form of memory, an invariant (log 1). -/
def Obligations.OnlyWriteOperandsChangeMemory : Prop :=
  ∀ (s t : State) (x : Nat), s.mem.wf → step s = .next t → t.mem.read x ≠ s.mem.read x →
    ∃ i o, instrAtIp i s ∧ i.writeOperand = some o ∧ writable o s ∧ (x : Int) = operandAddress o s

/-- A step takes from InQ only by an Input, one value, the head, which it stores; and adds to OutQ only by an Output, one
value, at the end (10_state.md section 7, 42_dispatch_step.md section 3; D20, D21). -/
def Obligations.ChannelsMoveOneValueInOrder : Prop :=
  ∀ s t : State, step s = .next t →
    (t.inQ = s.inQ ∨ ∃ a v, instrAtIp (.input a) s ∧ s.inQ = v :: t.inQ ∧
      t.mem = s.mem.write (operandAddress a s).toNat v) ∧
    (t.outQ = s.outQ ∨ ∃ a, instrAtIp (.output a) s ∧ t.outQ = s.outQ ++ [operandValue a s])

/-- Two Running instances that agree on IP, RB, memory and the head of InQ, and on nothing else, take the same step: same
IP, RB, memory, STATUS and fault, same values emitted and the same number consumed (42_dispatch_step.md section 3, on
determinism). -/
def Obligations.StepDependsOnlyOnItsInputs : Prop :=
  ∀ s s' t t' : State, s.status = .running → s'.status = .running → s.ip = s'.ip → s.rb = s'.rb → s.mem = s'.mem →
    s.inQ.head? = s'.inQ.head? → step s = .next t → step s' = .next t' →
    t.ip = t'.ip ∧ t.rb = t'.rb ∧ t.mem = t'.mem ∧ t.status = t'.status ∧
    (t.status = .faulted → t.faultRec = t'.faultRec) ∧
    (∃ emitted, t.outQ = s.outQ ++ emitted ∧ t'.outQ = s'.outQ ++ emitted) ∧
    ∃ n, t.inQ = s.inQ.drop n ∧ t'.inQ = s'.inQ.drop n

/-- Every step answers a next state: no data and no cell ends the model (42_dispatch_step.md section 3 and
60_exceptions.md section 3 give every step an effect; that a fault is a next state is log 2, that a request to a
stopped instance is one is log 3). -/
def Obligations.EveryStepAnswersNext : Prop :=
  ∀ s : State, ∃ t, step s = .next t

/-! ## The invariant -/

/-- The state after reset, with the empty image (log 4), meets the invariant. -/
def Obligations.ResetMeetsInvariant : Prop := StateInvariant State.reset

/-- What reset leaves, for every image and every input sequence: the values of 10_state.md section 7's summary and
70_reset_and_hazards.md section 1 (RB 0 is the source's; IP, STATUS, FAULTREC and OutQ are the spec's decisions D8, D19,
D11, D21), and the invariant. That State.reset is the case of no image and no input is log 4. -/
def Obligations.ResetLeavesSpecifiedState : Prop :=
  (∀ image inputs : List Int,
    (hostReset image inputs).rb = 0 ∧ (hostReset image inputs).ip = 0 ∧
    (hostReset image inputs).status = .running ∧ (hostReset image inputs).faultRec = none ∧
    (hostReset image inputs).outQ = [] ∧ (hostReset image inputs).inQ = inputs ∧
    StateInvariant (hostReset image inputs)) ∧
  State.reset = hostReset [] []

/-- Every step keeps the invariant: memory canonical, FAULTREC held exactly when Faulted and describing the faulting
step, and an AwaitingInput instance with an empty queue and an Input at IP (10_state.md sections 4, 5 and 8,
60_exceptions.md section 3; the canonical form is log 1). -/
def Obligations.StepKeepsInvariant : Prop :=
  ∀ s t : State, StateInvariant s → step s = .next t → StateInvariant t

/-- Every state that any host schedule reaches from any reset meets the invariant (60_exceptions.md section 4, D23). -/
def Obligations.ReachableStatesMeetInvariant : Prop :=
  ∀ (image inputs : List Int) (as : List HostAction) (t : State),
    runSchedule as (hostReset image inputs) = .next t → StateInvariant t

/-- The host's push and take touch their channel only: push appends to InQ and wakes an AwaitingInput instance, take
removes the oldest outputs in the order they were emitted; both keep the invariant (10_state.md section 4,
60_exceptions.md section 4, the spec's decision D23; log 12). -/
def Obligations.HostChannelActions : Prop :=
  (∀ (v : Int) (s : State), pushInput v s = { s with
    inQ := s.inQ ++ [v]
    status := if s.status = .awaitingInput then .running else s.status }) ∧
  (∀ (n : Nat) (s : State), takenOutput n s ++ (takeOutput n s).outQ = s.outQ ∧
    takeOutput n s = { s with outQ := s.outQ.drop n }) ∧
  (∀ (v : Int) (s : State), StateInvariant s → StateInvariant (pushInput v s)) ∧
  ∀ (n : Nat) (s : State), StateInvariant s → StateInvariant (takeOutput n s)
end

