-- ==== Sys2Proof/Laws/Decode.lean ====
section
/-! SUPPORT. The small lemmas of the decoder: tables and their inverses, the digits of an opcode cell, and what a
successful decode says. -/

namespace Sys2Proof

/-- The class table and the number table are inverse (40_decoder.md R72, 30_encoding.md R61). -/
theorem InstrClass.ofNumber_eq_some {n : Nat} {c : InstrClass} : InstrClass.ofNumber n = some c ↔ n = c.number := by
  constructor
  · intro h
    unfold InstrClass.ofNumber at h
    repeat' split at h
    all_goals simp_all
    all_goals subst h; rfl
  · rintro rfl
    cases c <;> rfl

/-- The digit table and the mode table are inverse (30_encoding.md R57). -/
theorem Mode.ofDigit_eq_some {d : Nat} {m : Mode} : Mode.ofDigit d = some m ↔ d = m.digit := by
  constructor
  · intro h
    unfold Mode.ofDigit at h
    split at h <;> simp_all <;> subst h <;> rfl
  · rintro rfl
    cases m <;> rfl

theorem InstrClass.number_lt (c : InstrClass) : c.number < 100 := by cases c <;> decide

theorem Mode.digit_lt (m : Mode) : m.digit < 3 := by cases m <;> decide

theorem modeDigit_one (op : Nat) : modeDigit op 1 = op / 100 % 10 := rfl

theorem modeDigit_two (op : Nat) : modeDigit op 2 = op / 1000 % 10 := rfl

theorem modeDigit_three (op : Nat) : modeDigit op 3 = op / 10000 % 10 := rfl

/-- A position within the arity passes exactly with a legal digit that is not 1 at the write position. -/
theorem checkPosition_ok_within {c : InstrClass} {op : Nat} {k : Fin 4} {m : Mode} (hk : k.val ≤ c.arity) :
    checkPosition c op k = .ok m ↔ modeDigit op k.val = m.digit ∧ ¬ (c.wpos = some k ∧ m = .immediate) := by
  unfold checkPosition modeOf
  rw [if_pos hk]
  cases h : Mode.ofDigit (modeDigit op k.val) with
  | none =>
    have : modeDigit op k.val ≠ m.digit := fun hd => by simp [Mode.ofDigit_eq_some.2 hd] at h
    simp [this]
  | some n =>
    have hn := Mode.ofDigit_eq_some.1 h
    have hinj : n.digit = m.digit ↔ n = m := by cases n <;> cases m <;> decide
    simp only [hn, hinj]
    split
    · simp only [reduceCtorEq, false_iff, not_and]
      rintro rfl h
      exact h (And.left ‹_›) (And.right ‹_›)
    · simp only [Except.ok.injEq]
      constructor
      · rintro rfl
        exact ⟨rfl, ‹_›⟩
      · exact And.left

/-- A position above the arity passes exactly with the digit 0, as Indirect. -/
theorem checkPosition_ok_above {c : InstrClass} {op : Nat} {k : Fin 4} {m : Mode} (hk : c.arity < k.val) :
    checkPosition c op k = .ok m ↔ modeDigit op k.val = 0 ∧ m = .indirect := by
  unfold checkPosition
  rw [if_neg (not_le.2 hk)]
  split <;> simp_all [eq_comm]

/-- The mode pass succeeds exactly when its three positions do. -/
theorem decodeModes_ok {c : InstrClass} {op : Nat} {d : Descriptor} : decodeModes c op = .ok d ↔
    d.cls = c ∧ checkPosition c op 1 = .ok d.mode1 ∧ checkPosition c op 2 = .ok d.mode2 ∧
      checkPosition c op 3 = .ok d.mode3 := by
  obtain ⟨dc, m1, m2, m3⟩ := d
  unfold decodeModes
  cases checkPosition c op 1 <;> cases checkPosition c op 2 <;> cases checkPosition c op 3 <;>
    simp [Descriptor.mk.injEq, eq_comm]

/-- Decoding succeeds exactly in range, with a class, and with the mode pass. -/
theorem decodeCell_ok {op : Int} {d : Descriptor} : decodeCell op = .ok d ↔
    0 ≤ op ∧ op ≤ 99999 ∧ op.toNat % 100 = d.cls.number ∧ decodeModes d.cls op.toNat = .ok d := by
  unfold decodeCell
  split
  · simp only [reduceCtorEq, false_iff]
    intro h
    simp only [Config.maxOpcode] at *
    omega
  · have hr : 0 ≤ op ∧ op ≤ 99999 := by simp only [Config.maxOpcode] at *; omega
    cases hc : InstrClass.ofNumber (op.toNat % 100) with
    | none =>
      have : op.toNat % 100 ≠ d.cls.number := fun h => by simp [InstrClass.ofNumber_eq_some.2 h] at hc
      simp [this]
    | some c =>
      have hn := InstrClass.ofNumber_eq_some.1 hc
      have hinj : c.number = d.cls.number ↔ c = d.cls := by
        constructor
        · intro h
          exact Option.some.inj (by rw [← InstrClass.ofNumber_eq_some.2 rfl, h, InstrClass.ofNumber_eq_some.2 rfl])
        · exact fun h => h ▸ rfl
      simp only [hr, hn, hinj, true_and]
      constructor
      · intro h
        have := (decodeModes_ok.1 h).1
        exact ⟨this.symm, this ▸ h⟩
      · rintro ⟨rfl, h⟩
        exact h

/-- What a position can report: its own position, no address, and one of the two mode faults, ImmediateWrite only for the
digit 1 at the write position. -/
theorem checkPosition_error {c : InstrClass} {op : Nat} {k : Fin 4} {r : FaultReport}
    (h : checkPosition c op k = .error r) :
    r.addr = none ∧ r.pos = k ∧ (r.cause = .invalidModeDigit ∨ r.cause = .immediateWrite) ∧
      (r.cause = .immediateWrite → modeDigit op k.val = 1 ∧ c.wpos = some k) := by
  unfold checkPosition modeOf at h
  split at h
  · cases hm : Mode.ofDigit (modeDigit op k.val) with
    | none =>
      simp only [hm, Except.error.injEq] at h
      subst h
      simp
    | some m =>
      simp only [hm] at h
      split at h
      · rename_i hw
        simp only [Except.error.injEq] at h
        subst h
        exact ⟨rfl, rfl, .inr rfl, fun _ => ⟨by rw [Mode.ofDigit_eq_some.1 hm, hw.2]; rfl, hw.1⟩⟩
      · simp at h
  · split at h
    · simp at h
    · simp only [Except.error.injEq] at h
      subst h
      simp

/-- The mode pass reports a fault of one of its three positions. -/
theorem decodeModes_error {c : InstrClass} {op : Nat} {r : FaultReport} (h : decodeModes c op = .error r) :
    ∃ k : Fin 4, k ≠ 0 ∧ checkPosition c op k = .error r := by
  unfold decodeModes at h
  cases h1 : checkPosition c op 1 with
  | error q =>
    simp only [h1, Except.error.injEq] at h
    exact ⟨1, by decide, h ▸ h1⟩
  | ok m1 =>
    cases h2 : checkPosition c op 2 with
    | error q =>
      simp only [h1, h2, Except.error.injEq] at h
      exact ⟨2, by decide, h ▸ h2⟩
    | ok m2 =>
      cases h3 : checkPosition c op 3 with
      | error q =>
        simp only [h1, h2, h3, Except.error.injEq] at h
        exact ⟨3, by decide, h ▸ h3⟩
      | ok m3 => simp [h1, h2, h3] at h

theorem Instr.operands_length (i : Instr) : i.operands.length = i.cls.arity := by cases i <;> rfl

theorem operandDigit_lt (os : List Operand) (n : Nat) : operandDigit os n < 3 := by
  unfold operandDigit
  split
  · exact Mode.digit_lt _
  · decide

end Sys2Proof
end

