-- ==== Sys2Proof/Laws/Memory.lean ====
section
/-! SUPPORT. The laws of memory: reads after writes (20_memory.md R39, R40), and that every operation keeps the
canonical form. -/

namespace Sys2Proof.Machine

@[simp] theorem Memory.read_nil (a : Nat) : Memory.read [] a = 0 := rfl

theorem Memory.read_cons (b : Nat) (v : Int) (m : Memory) (a : Nat) :
    Memory.read ((b, v) :: m) a = if b = a then v else Memory.read m a := rfl

@[simp] theorem Memory.wf_nil : Memory.wf [] := rfl

theorem Memory.wf_cons {b : Nat} {v : Int} {m : Memory} :
    Memory.wf ((b, v) :: m) ↔ v ≠ 0 ∧ (∀ c ∈ m, b < c.1) ∧ Memory.wf m := by
  simp only [Memory.wf, decide_eq_true_eq, List.pairwise_cons, List.forall_mem_cons]
  tauto

/-- An address that no listed cell has reads as never written. -/
theorem Memory.read_eq_zero {m : Memory} {a : Nat} (h : ∀ c ∈ m, c.1 ≠ a) : m.read a = 0 := by
  induction m with
  | nil => rfl
  | cons c m ih =>
    obtain ⟨b, v⟩ := c
    rw [Memory.read_cons, if_neg (h (b, v) (by simp)), ih fun c hc => h c (by simp [hc])]

/-- In a canonical memory the addresses below the first listed one read as never written. -/
theorem Memory.read_below {m : Memory} {a : Nat} (h : ∀ c ∈ m, a < c.1) : m.read a = 0 :=
  Memory.read_eq_zero fun c hc => (h c hc).ne'

theorem Memory.consCell_wf {a : Nat} {v : Int} {m : Memory} (h : ∀ c ∈ m, a < c.1) (hm : m.wf) :
    (Memory.consCell a v m).wf := by
  unfold Memory.consCell
  split
  · exact hm
  · exact Memory.wf_cons.2 ⟨‹_›, h, hm⟩

theorem Memory.read_consCell {a : Nat} {v : Int} {m : Memory} (h : ∀ c ∈ m, a < c.1) (x : Nat) :
    (Memory.consCell a v m).read x = if x = a then v else m.read x := by
  unfold Memory.consCell
  split
  · split
    · subst x v
      exact Memory.read_below h
    · rfl
  · simp [Memory.read_cons, eq_comm]

theorem Memory.mem_consCell {a : Nat} {v : Int} {m : Memory} {c : Nat × Int}
    (h : c ∈ Memory.consCell a v m) : c.1 = a ∨ c ∈ m := by
  unfold Memory.consCell at h
  split at h
  · exact .inr h
  · rcases List.mem_cons.1 h with rfl | h
    · exact .inl rfl
    · exact .inr h

/-- A write lists no address but its own that was not listed before. -/
theorem Memory.mem_write {m : Memory} {a : Nat} {v : Int} {c : Nat × Int} (h : c ∈ m.write a v) :
    c.1 = a ∨ c ∈ m := by
  induction m with
  | nil => exact Memory.mem_consCell h
  | cons d m ih =>
    obtain ⟨b, w⟩ := d
    unfold Memory.write at h
    split at h
    · exact Memory.mem_consCell h
    · split at h
      · exact (Memory.mem_consCell h).imp_right (List.mem_cons_of_mem _)
      · rcases List.mem_cons.1 h with rfl | h
        · exact .inr List.mem_cons_self
        · exact (ih h).imp_right (List.mem_cons_of_mem _)

/-- A write keeps the canonical form. -/
theorem Memory.write_wf {m : Memory} (hm : m.wf) (a : Nat) (v : Int) : (m.write a v).wf := by
  induction m with
  | nil => exact Memory.consCell_wf (by simp) hm
  | cons d m ih =>
    obtain ⟨b, w⟩ := d
    obtain ⟨hw, hb, hm'⟩ := Memory.wf_cons.1 hm
    unfold Memory.write
    split
    · refine Memory.consCell_wf (fun c hc => ?_) hm
      rcases List.mem_cons.1 hc with rfl | hc
      · assumption
      · exact lt_trans ‹_› (hb c hc)
    · split
      · subst a
        exact Memory.consCell_wf hb hm'
      · refine Memory.wf_cons.2 ⟨hw, fun c hc => ?_, ih hm'⟩
        rcases Memory.mem_write hc with h | h
        · omega
        · exact hb c h

/-- A read after a write: the value written at its address, and what was there before at every other
(20_memory.md R39, R40). -/
theorem Memory.read_write {m : Memory} (hm : m.wf) (a : Nat) (v : Int) (x : Nat) :
    (m.write a v).read x = if x = a then v else m.read x := by
  induction m with
  | nil => exact Memory.read_consCell (by simp) x
  | cons d m ih =>
    obtain ⟨b, w⟩ := d
    obtain ⟨-, hb, hm'⟩ := Memory.wf_cons.1 hm
    unfold Memory.write
    split
    · refine Memory.read_consCell (fun c hc => ?_) x
      rcases List.mem_cons.1 hc with rfl | hc
      · assumption
      · exact lt_trans ‹_› (hb c hc)
    · split
      · subst a
        rw [Memory.read_consCell hb, Memory.read_cons]
        split
        · rfl
        · rw [if_neg fun h => ‹¬ x = b› h.symm]
      · rw [Memory.read_cons, Memory.read_cons, ih hm']
        split <;> split <;> first | rfl | omega

@[simp] theorem Memory.read_write_same {m : Memory} (hm : m.wf) (a : Nat) (v : Int) :
    (m.write a v).read a = v := by
  simp [Memory.read_write hm]

theorem Memory.read_write_other {m : Memory} (hm : m.wf) {a x : Nat} (h : x ≠ a) (v : Int) :
    (m.write a v).read x = m.read x := by
  simp [Memory.read_write hm, h]

theorem Memory.mem_load {ws : List Int} {a : Nat} {c : Nat × Int} (h : c ∈ Memory.load a ws) : a ≤ c.1 := by
  induction ws generalizing a with
  | nil => simp [Memory.load] at h
  | cons w ws ih =>
    rcases Memory.mem_consCell h with h | h
    · omega
    · exact Nat.le_of_succ_le (ih h)

/-- Loading a program image gives a canonical memory. -/
theorem Memory.load_wf (ws : List Int) (a : Nat) : (Memory.load a ws).wf := by
  induction ws generalizing a with
  | nil => exact Memory.wf_nil
  | cons w ws ih => exact Memory.consCell_wf (fun c hc => Memory.mem_load hc) (ih (a + 1))

/-- Placing cells at the fetch keeps the canonical form. -/
theorem writeCells_wf {m : Memory} (hm : m.wf) (vs : List Int) (a : Nat) : (writeCells a vs m).wf := by
  induction vs generalizing m a with
  | nil => exact hm
  | cons v vs ih => exact ih (Memory.write_wf hm a v) (a + 1)

theorem reset_mem_wf : State.reset.mem.wf := Memory.wf_nil

end Sys2Proof.Machine
end

