-- ==== Sys2Proof/Laws/Operands.lean ====
section
/-! SUPPORT. What the resolver answers, in the terms of 30_encoding.md R59: one lemma for each way it can end. -/

namespace Sys2Proof.Machine

theorem checkAddress_nonneg {a : Int} (h : 0 ≤ a) (pos : Fin 4) : checkAddress pos a = .ok a.toNat :=
  if_neg (not_lt.2 h)

theorem checkAddress_negative {a : Int} (h : a < 0) (pos : Fin 4) :
    checkAddress pos a = .error ⟨.negativeAddress, pos, some a⟩ :=
  if_pos h

/-- A readable operand resolves to its value. -/
theorem resolveRead_readable {o : Operand} {s : State} (h : readable o s) (pos : Fin 4) :
    resolveRead pos o s.rb s.mem = .ok (operandValue o s) := by
  obtain ⟨m, raw⟩ := o
  cases m
  · simp [resolveRead, effectiveAddress, operandValue, checkAddress_nonneg (show 0 ≤ raw from h)]
  · rfl
  · simp [resolveRead, effectiveAddress, operandValue, checkAddress_nonneg (show 0 ≤ raw + s.rb from h)]

/-- An operand that cannot be read faults with its position and address. -/
theorem resolveRead_not_readable {o : Operand} {s : State} (h : ¬ readable o s) (pos : Fin 4) :
    resolveRead pos o s.rb s.mem = .error ⟨.negativeAddress, pos, some (operandAddress o s)⟩ := by
  obtain ⟨m, raw⟩ := o
  cases m
  · simp [resolveRead, effectiveAddress, operandAddress, checkAddress_negative (show raw < 0 from not_le.1 h)]
  · exact absurd trivial h
  · simp [resolveRead, effectiveAddress, operandAddress,
      checkAddress_negative (show raw + s.rb < 0 from not_le.1 h)]

/-- A writable operand resolves to its address. -/
theorem resolveWriteAddress_writable {o : Operand} {s : State} (h : writable o s) (pos : Fin 4) :
    resolveWriteAddress pos o s.rb = .ok (operandAddress o s).toNat := by
  obtain ⟨m, raw⟩ := o
  cases m
  · exact checkAddress_nonneg (show 0 ≤ raw from h) pos
  · exact absurd h not_false
  · exact checkAddress_nonneg (show 0 ≤ raw + s.rb from h) pos

/-- A memory-mode target that cannot be written faults with its position and address. -/
theorem resolveWriteAddress_not_writable {o : Operand} {s : State} (h : ¬ writable o s) (hm : o.mode ≠ .immediate)
    (pos : Fin 4) :
    resolveWriteAddress pos o s.rb = .error ⟨.negativeAddress, pos, some (operandAddress o s)⟩ := by
  obtain ⟨m, raw⟩ := o
  cases m
  · exact checkAddress_negative (show raw < 0 from not_le.1 h) pos
  · exact absurd rfl hm
  · exact checkAddress_negative (show raw + s.rb < 0 from not_le.1 h) pos

/-- An Immediate target is no address (41_resolver.md R87). -/
theorem resolveWriteAddress_immediate {o : Operand} (hm : o.mode = .immediate) (pos : Fin 4) (rb : Int) :
    resolveWriteAddress pos o rb = .error ⟨.immediateWrite, pos, none⟩ := by
  simp [resolveWriteAddress, effectiveAddress, hm]

/-- The target resolves exactly when it is writable, and then to its address. -/
theorem resolveWriteAddress_ok_iff {o : Operand} {s : State} {pos : Fin 4} {a : Nat} :
    resolveWriteAddress pos o s.rb = .ok a ↔ writable o s ∧ a = (operandAddress o s).toNat := by
  by_cases h : writable o s
  · simp [resolveWriteAddress_writable h, h, eq_comm]
  · by_cases hm : o.mode = .immediate
    · simp [resolveWriteAddress_immediate hm, h]
    · simp [resolveWriteAddress_not_writable h hm, h]

end Sys2Proof.Machine
end

