-- ==== Sys2Proof/Laws/State.lean ====
section
/-! SUPPORT. One lemma per field per update of the state, each true by definition. -/

namespace Sys2Proof.Machine

section
variable (s : State) (v : Int)
@[simp] theorem State.withIp_ip : (s.withIp v).ip = v := rfl
@[simp] theorem State.withIp_rb : (s.withIp v).rb = s.rb := rfl
@[simp] theorem State.withIp_status : (s.withIp v).status = s.status := rfl
@[simp] theorem State.withIp_faultRec : (s.withIp v).faultRec = s.faultRec := rfl
@[simp] theorem State.withIp_mem : (s.withIp v).mem = s.mem := rfl
@[simp] theorem State.withIp_inQ : (s.withIp v).inQ = s.inQ := rfl
@[simp] theorem State.withIp_outQ : (s.withIp v).outQ = s.outQ := rfl
end

section
variable (s : State) (v : Int)
@[simp] theorem State.withRb_ip : (s.withRb v).ip = s.ip := rfl
@[simp] theorem State.withRb_rb : (s.withRb v).rb = v := rfl
@[simp] theorem State.withRb_status : (s.withRb v).status = s.status := rfl
@[simp] theorem State.withRb_faultRec : (s.withRb v).faultRec = s.faultRec := rfl
@[simp] theorem State.withRb_mem : (s.withRb v).mem = s.mem := rfl
@[simp] theorem State.withRb_inQ : (s.withRb v).inQ = s.inQ := rfl
@[simp] theorem State.withRb_outQ : (s.withRb v).outQ = s.outQ := rfl
end

section
variable (s : State) (v : Status)
@[simp] theorem State.withStatus_ip : (s.withStatus v).ip = s.ip := rfl
@[simp] theorem State.withStatus_rb : (s.withStatus v).rb = s.rb := rfl
@[simp] theorem State.withStatus_status : (s.withStatus v).status = v := rfl
@[simp] theorem State.withStatus_faultRec : (s.withStatus v).faultRec = s.faultRec := rfl
@[simp] theorem State.withStatus_mem : (s.withStatus v).mem = s.mem := rfl
@[simp] theorem State.withStatus_inQ : (s.withStatus v).inQ = s.inQ := rfl
@[simp] theorem State.withStatus_outQ : (s.withStatus v).outQ = s.outQ := rfl
end

section
variable (s : State) (v : Option FaultRecord)
@[simp] theorem State.withFaultRec_ip : (s.withFaultRec v).ip = s.ip := rfl
@[simp] theorem State.withFaultRec_rb : (s.withFaultRec v).rb = s.rb := rfl
@[simp] theorem State.withFaultRec_status : (s.withFaultRec v).status = s.status := rfl
@[simp] theorem State.withFaultRec_faultRec : (s.withFaultRec v).faultRec = v := rfl
@[simp] theorem State.withFaultRec_mem : (s.withFaultRec v).mem = s.mem := rfl
@[simp] theorem State.withFaultRec_inQ : (s.withFaultRec v).inQ = s.inQ := rfl
@[simp] theorem State.withFaultRec_outQ : (s.withFaultRec v).outQ = s.outQ := rfl
end

section
variable (s : State) (v : Memory)
@[simp] theorem State.withMem_ip : (s.withMem v).ip = s.ip := rfl
@[simp] theorem State.withMem_rb : (s.withMem v).rb = s.rb := rfl
@[simp] theorem State.withMem_status : (s.withMem v).status = s.status := rfl
@[simp] theorem State.withMem_faultRec : (s.withMem v).faultRec = s.faultRec := rfl
@[simp] theorem State.withMem_mem : (s.withMem v).mem = v := rfl
@[simp] theorem State.withMem_inQ : (s.withMem v).inQ = s.inQ := rfl
@[simp] theorem State.withMem_outQ : (s.withMem v).outQ = s.outQ := rfl
end

section
variable (s : State) (v : List Int)
@[simp] theorem State.withInQ_ip : (s.withInQ v).ip = s.ip := rfl
@[simp] theorem State.withInQ_rb : (s.withInQ v).rb = s.rb := rfl
@[simp] theorem State.withInQ_status : (s.withInQ v).status = s.status := rfl
@[simp] theorem State.withInQ_faultRec : (s.withInQ v).faultRec = s.faultRec := rfl
@[simp] theorem State.withInQ_mem : (s.withInQ v).mem = s.mem := rfl
@[simp] theorem State.withInQ_inQ : (s.withInQ v).inQ = v := rfl
@[simp] theorem State.withInQ_outQ : (s.withInQ v).outQ = s.outQ := rfl
end

section
variable (s : State) (v : List Int)
@[simp] theorem State.withOutQ_ip : (s.withOutQ v).ip = s.ip := rfl
@[simp] theorem State.withOutQ_rb : (s.withOutQ v).rb = s.rb := rfl
@[simp] theorem State.withOutQ_status : (s.withOutQ v).status = s.status := rfl
@[simp] theorem State.withOutQ_faultRec : (s.withOutQ v).faultRec = s.faultRec := rfl
@[simp] theorem State.withOutQ_mem : (s.withOutQ v).mem = s.mem := rfl
@[simp] theorem State.withOutQ_inQ : (s.withOutQ v).inQ = s.inQ := rfl
@[simp] theorem State.withOutQ_outQ : (s.withOutQ v).outQ = v := rfl
end

end Sys2Proof.Machine
end

