-- ==== Sys2Proof/Laws/Ops.lean ====
section
/-! SUPPORT. What commit, fault entry and the host's push do to the state, and the forms in which a meaning and a step
can end: the lemmas later proofs cite instead of unfolding them. -/

namespace Sys2Proof.Machine

section
variable (n : Nat) (s : State)

theorem commit_store (a : Nat) (v : Int) :
    commit (.store a v) n s = { s with mem := s.mem.write a v, ip := s.ip + 1 + n, status := .running } := rfl

theorem commit_inputStore (a : Nat) (v : Int) : commit (.inputStore a v) n s =
    { s with mem := s.mem.write a v, inQ := s.inQ.tail, ip := s.ip + 1 + n, status := .running } := rfl

theorem commit_await : commit .await n s = { s with status := .awaitingInput } := rfl

theorem commit_emit (v : Int) :
    commit (.emit v) n s = { s with outQ := s.outQ ++ [v], ip := s.ip + 1 + n, status := .running } := rfl

theorem commit_jump (t : Int) : commit (.jump t) n s = { s with ip := t, status := .running } := rfl

theorem commit_next : commit .next n s = { s with ip := s.ip + 1 + n, status := .running } := rfl

theorem commit_adjust (d : Int) :
    commit (.adjust d) n s = { s with rb := s.rb + d, ip := s.ip + 1 + n, status := .running } := rfl

theorem commit_halt : commit .halt n s = { s with ip := s.ip + 1 + n, status := .halted } := rfl

/-- A commit never touches FAULTREC (10_state.md R30). -/
theorem commit_faultRec (e : Effect) : (commit e n s).faultRec = s.faultRec := by cases e <;> rfl

/-- A commit leaves STATUS as its effect's outcome says (42_dispatch_step.md R105), never Faulted. -/
theorem commit_status (e : Effect) : (commit e n s).status = e.outcome.status := by cases e <;> rfl

theorem commit_not_faulted (e : Effect) : (commit e n s).status ≠ .faulted := by cases e <;> simp [commit_status, Effect.outcome, StepOutcome.status]

theorem enterFault_eq (op : Option Int) (r : FaultReport) : enterFault op r s =
    { s with status := .faulted, faultRec := some ⟨r.cause, s.ip, op, r.pos, r.addr⟩ } := rfl

theorem pushInput_awaiting {s : State} (h : s.status = .awaitingInput) (v : Int) :
    pushInput v s = { s with inQ := s.inQ ++ [v], status := .running } := by
  simp [pushInput, h, State.withInQ, State.withStatus]

theorem pushInput_not_awaiting {s : State} (h : s.status ≠ .awaitingInput) (v : Int) :
    pushInput v s = { s with inQ := s.inQ ++ [v] } := by
  unfold pushInput
  cases hs : s.status <;> simp_all [State.withInQ]

end

/-- A commit keeps memory canonical. -/
theorem commit_mem_wf {s : State} (h : s.mem.wf) (e : Effect) (n : Nat)
    (write_wf : ∀ a v, (s.mem.write a v).wf) : (commit e n s).mem.wf := by
  cases e <;> first | exact h | exact write_wf _ _

/-- A meaning ends in one of two ways: the fault of its operands, with its opcode cell in the record, or the commit of
an effect with the arity of its class (42_dispatch_step.md R100). -/
theorem exec_cases (i : Instr) (s : State) :
    (∃ r, exec i s = raiseFault (some (opcodeCell i)) r s) ∨ ∃ e, exec i s = .next (commit e i.cls.arity s) := by
  have ends : ∀ op n (e : Except FaultReport Effect),
      (∃ r, conclude op n e s = raiseFault (some op) r s) ∨ ∃ f, conclude op n e s = .next (commit f n s) := by
    intro op n e
    cases e with
    | error r => exact .inl ⟨r, rfl⟩
    | ok f => exact .inr ⟨f, rfl⟩
  cases i <;> first | exact ends _ _ _ | exact .inr ⟨.halt, rfl⟩

/-- A Running step runs the fetched instruction, or enters the fault of the fetch or of the decoder. -/
theorem step_running {s : State} (h : s.status = .running) : step s = stepRunning s := by simp [step, h]

/-- No other step has an effect (42_dispatch_step.md R106; log 3). -/
theorem step_not_running {s : State} (h : s.status ≠ .running) : step s = .next s := by
  unfold step
  cases hs : s.status <;> first | rfl | exact absurd hs h

/-- The fetch faults for a negative IP or for a cell that does not decode, and no other way. -/
theorem fetchInstr_error {s : State} {f : FetchFault} (h : fetchInstr s = .error f) :
    (s.ip < 0 ∧ f = ⟨none, ⟨.negativeAddress, 0, some s.ip⟩⟩) ∨
      (0 ≤ s.ip ∧ ∃ r, decodeCell (s.mem.read s.ip.toNat) = .error r ∧ f = ⟨some (s.mem.read s.ip.toNat), r⟩) := by
  unfold fetchInstr at h
  split at h
  · exact .inl ⟨‹_›, by simpa [eq_comm] using h⟩
  · cases hd : decodeCell (s.mem.read s.ip.toNat) with
    | error r => exact .inr ⟨not_lt.1 ‹_›, r, rfl, by simpa [hd, eq_comm] using h⟩
    | ok d => simp [hd] at h

/-- The fetch answers the assembled instruction of the cell at a non-negative IP, and no other way. -/
theorem fetchInstr_ok {s : State} {i : Instr} (h : fetchInstr s = .ok i) :
    0 ≤ s.ip ∧ ∃ d, decodeCell (s.mem.read s.ip.toNat) = .ok d ∧
      i = assemble d (fun k => s.mem.read (s.ip.toNat + k)) := by
  unfold fetchInstr at h
  split at h
  · simp at h
  · cases hd : decodeCell (s.mem.read s.ip.toNat) with
    | error r => simp [hd] at h
    | ok d => exact ⟨not_lt.1 ‹_›, d, rfl, by simpa [hd, eq_comm] using h⟩

/-- What a Running step can do: the fetch or the decoder faults, or the fetched instruction runs. -/
theorem step_cases {s t : State} (h : s.status = .running) (hst : step s = .next t) :
    (∃ f, fetchInstr s = .error f ∧ t = enterFault f.opcode f.report s) ∨
      ∃ i, fetchInstr s = .ok i ∧ exec i s = .next t := by
  rw [step_running h, stepRunning] at hst
  cases hf : fetchInstr s with
  | error f =>
    rw [hf] at hst
    exact .inl ⟨f, rfl, by simpa [raiseFault, eq_comm] using hst⟩
  | ok i =>
    rw [hf] at hst
    exact .inr ⟨i, rfl, hst⟩

end Sys2Proof.Machine
end

