-- ==== Sys2Proof/Laws/Exec.lean ====
section
/-! SUPPORT. What the operand routing of each shape answers (42_dispatch_step.md R96, R97), for the proofs about the
meanings. -/

namespace Sys2Proof.Machine

section
variable {a b c : Operand} {s : State}

theorem routeRead_ok (ha : readable a s) (f : Int → Effect) : routeRead a s f = .ok (f (operandValue a s)) := by
  simp [routeRead, resolveRead_readable ha]

theorem routeRead_fault (ha : ¬ readable a s) (f : Int → Effect) :
    routeRead a s f = .error ⟨.negativeAddress, 1, some (operandAddress a s)⟩ := by
  simp [routeRead, resolveRead_not_readable ha]

theorem routeInput_ok (ha : writable a s) (f : Nat → Option Int → Effect) :
    routeInput a s f = .ok (f (operandAddress a s).toNat s.inQ.head?) := by
  simp [routeInput, resolveWriteAddress_writable ha]

theorem routeInput_fault (ha : ¬ writable a s) (hm : a.mode ≠ .immediate) (f : Nat → Option Int → Effect) :
    routeInput a s f = .error ⟨.negativeAddress, 1, some (operandAddress a s)⟩ := by
  simp [routeInput, resolveWriteAddress_not_writable ha hm]

theorem routeReadRead_ok (ha : readable a s) (hb : readable b s) (f : Int → Int → Effect) :
    routeReadRead a b s f = .ok (f (operandValue a s) (operandValue b s)) := by
  simp [routeReadRead, resolveRead_readable ha, resolveRead_readable hb]

theorem routeReadReadWrite_ok (ha : readable a s) (hb : readable b s) (hc : writable c s)
    (f : Int → Int → Nat → Effect) :
    routeReadReadWrite a b c s f =
      .ok (f (operandValue a s) (operandValue b s) (operandAddress c s).toNat) := by
  simp [routeReadReadWrite, resolveRead_readable ha, resolveRead_readable hb, resolveWriteAddress_writable hc]

end

/-- Every step answers a next state with canonical memory, from canonical memory. -/
theorem exec_mem_wf {i : Instr} {s t : State} (h : s.mem.wf) (ht : exec i s = .next t) : t.mem.wf := by
  obtain ⟨r, hr⟩ | ⟨e, he⟩ := exec_cases i s
  · rw [hr] at ht
    injection ht with ht
    subst ht
    exact h
  · rw [he] at ht
    injection ht with ht
    subst ht
    exact commit_mem_wf h e _ (Memory.write_wf h)

/-- A step keeps memory canonical. -/
theorem step_mem_wf {s t : State} (h : s.mem.wf) (ht : step s = .next t) : t.mem.wf := by
  by_cases hs : s.status = .running
  · obtain ⟨f, -, rfl⟩ | ⟨i, -, hi⟩ := step_cases hs ht
    · exact h
    · exact exec_mem_wf h hi
  · rw [step_not_running hs] at ht
    injection ht with ht
    exact ht ▸ h

end Sys2Proof.Machine
end

