-- ==== Sys2Proof/Laws/PerInstr.lean ====
section
/-! SUPPORT. Facts about each instruction as syntax, one lemma per constructor. -/

namespace Sys2Proof.Laws

/-- The encoding has 1 + arity cells (30_encoding.md R53). -/
def EncodeLength.Statement (i : Instr) : Prop := (encode i).length = 1 + i.cls.arity

theorem EncodeLength.add (a b c : Operand) : EncodeLength.Statement (.add a b c) := rfl
theorem EncodeLength.multiply (a b c : Operand) : EncodeLength.Statement (.multiply a b c) := rfl
theorem EncodeLength.input (a : Operand) : EncodeLength.Statement (.input a) := rfl
theorem EncodeLength.output (a : Operand) : EncodeLength.Statement (.output a) := rfl
theorem EncodeLength.jumpIfTrue (a b : Operand) : EncodeLength.Statement (.jumpIfTrue a b) := rfl
theorem EncodeLength.jumpIfFalse (a b : Operand) : EncodeLength.Statement (.jumpIfFalse a b) := rfl
theorem EncodeLength.lessThan (a b c : Operand) : EncodeLength.Statement (.lessThan a b c) := rfl
theorem EncodeLength.equals (a b c : Operand) : EncodeLength.Statement (.equals a b c) := rfl
theorem EncodeLength.adjustRelativeBase (a : Operand) : EncodeLength.Statement (.adjustRelativeBase a) := rfl
theorem EncodeLength.halt : EncodeLength.Statement .halt := rfl

/-- The opcode cell stays where decoding is defined, 0..99999 (30_encoding.md R66). -/
def OpcodeInRange.Statement (i : Instr) : Prop := 0 ≤ opcodeCell i ∧ opcodeCell i ≤ 99999

theorem opcodeInRange_any (i : Instr) : 0 ≤ opcodeCell i ∧ opcodeCell i ≤ 99999 := by
  have h0 := i.cls.number_lt
  have h1 := operandDigit_lt i.operands 1
  have h2 := operandDigit_lt i.operands 2
  have h3 := operandDigit_lt i.operands 3
  unfold opcodeCell
  omega

theorem OpcodeInRange.add (a b c : Operand) : OpcodeInRange.Statement (.add a b c) := opcodeInRange_any _
theorem OpcodeInRange.multiply (a b c : Operand) : OpcodeInRange.Statement (.multiply a b c) := opcodeInRange_any _
theorem OpcodeInRange.input (a : Operand) : OpcodeInRange.Statement (.input a) := opcodeInRange_any _
theorem OpcodeInRange.output (a : Operand) : OpcodeInRange.Statement (.output a) := opcodeInRange_any _
theorem OpcodeInRange.jumpIfTrue (a b : Operand) : OpcodeInRange.Statement (.jumpIfTrue a b) := opcodeInRange_any _
theorem OpcodeInRange.jumpIfFalse (a b : Operand) : OpcodeInRange.Statement (.jumpIfFalse a b) := opcodeInRange_any _
theorem OpcodeInRange.lessThan (a b c : Operand) : OpcodeInRange.Statement (.lessThan a b c) := opcodeInRange_any _
theorem OpcodeInRange.equals (a b c : Operand) : OpcodeInRange.Statement (.equals a b c) := opcodeInRange_any _
theorem OpcodeInRange.adjustRelativeBase (a : Operand) : OpcodeInRange.Statement (.adjustRelativeBase a) :=
  opcodeInRange_any _
theorem OpcodeInRange.halt : OpcodeInRange.Statement .halt := opcodeInRange_any _

end Sys2Proof.Laws
end

