-- ==== Sys2Proof/Tests/Slice0.lean ====
section
/-! SUPPORT. Tests. Expected results are those of spec/: the opcode map (30_encoding.md R61) and the vectors of
95_test_vectors.md, whose ids the comments give. Then, for each statement with hypotheses, a witness that meets them. -/

namespace Sys2Proof.Tests

open Sys2Proof Sys2Proof.Machine

/-- The state one answer holds, if it is a next state. -/
def nextOf : Result → Option State
  | .next s => some s
  | .fault _ => none
  | .refused _ => none

/-- A view of the state after one step from reset with an image and inputs. -/
def after (image inputs : List Int) (view : State → List Int) : Option (List Int) :=
  (nextOf (step (hostReset image inputs))).map view

/-- The fault record and STATUS after one step of a state. -/
def recordAfter (s : State) : Option (Status × Option FaultRecord) :=
  (nextOf (step s)).map fun t => (t.status, t.faultRec)

/-! ### Well-formedness refuses an Immediate target (R62, R65) -/

theorem test_illformed_add : (Instr.add ⟨.immediate, 1⟩ ⟨.immediate, 1⟩ ⟨.immediate, 0⟩).wellFormed = false := by decide
theorem test_illformed_multiply : (Instr.multiply ⟨.indirect, 1⟩ ⟨.relative, 1⟩ ⟨.immediate, 0⟩).wellFormed = false := by
  decide
theorem test_illformed_input : (Instr.input ⟨.immediate, 0⟩).wellFormed = false := by decide
theorem test_illformed_lessThan : (Instr.lessThan ⟨.indirect, 1⟩ ⟨.indirect, 1⟩ ⟨.immediate, 0⟩).wellFormed = false := by
  decide
theorem test_illformed_equals : (Instr.equals ⟨.indirect, 1⟩ ⟨.indirect, 1⟩ ⟨.immediate, 0⟩).wellFormed = false := by
  decide
theorem test_wellformed_output_immediate : (Instr.output ⟨.immediate, 1⟩).wellFormed = true := by decide

/-! ### Decoding, words written out from the patterns of R61 -/

theorem test_decode_add : decode [22201, -1, 2, 3, 9] =
    .ok (.add ⟨.relative, -1⟩ ⟨.relative, 2⟩ ⟨.relative, 3⟩, [9]) := by decide
theorem test_decode_multiply : decode [1002, 4, 3, 4] =
    .ok (.multiply ⟨.indirect, 4⟩ ⟨.immediate, 3⟩ ⟨.indirect, 4⟩, []) := by decide
theorem test_decode_input : decode [3, 0, 4] = .ok (.input ⟨.indirect, 0⟩, [4]) := by decide
theorem test_decode_output : decode [204, -1] = .ok (.output ⟨.relative, -1⟩, []) := by decide
theorem test_decode_jumpIfTrue : decode [1105, 1, 7] = .ok (.jumpIfTrue ⟨.immediate, 1⟩ ⟨.immediate, 7⟩, []) := by decide
theorem test_decode_jumpIfFalse : decode [106, 0, 5] = .ok (.jumpIfFalse ⟨.immediate, 0⟩ ⟨.indirect, 5⟩, []) := by decide
theorem test_decode_lessThan : decode [20107, 1, 2, 3] =
    .ok (.lessThan ⟨.immediate, 1⟩ ⟨.indirect, 2⟩ ⟨.relative, 3⟩, []) := by decide
theorem test_decode_equals : decode [1108, 8, 8, 5] =
    .ok (.equals ⟨.immediate, 8⟩ ⟨.immediate, 8⟩ ⟨.indirect, 5⟩, []) := by decide
theorem test_decode_adjustRelativeBase : decode [109, 1] = .ok (.adjustRelativeBase ⟨.immediate, 1⟩, []) := by decide
theorem test_decode_halt : decode [99, 99] = .ok (.halt, [99]) := by decide
theorem test_decode_truncated : decode [1101, 1, 1] = .error .truncated := by decide

/-- V-DEC-17, 18, 31: UnknownOpcode before the modes, OpcodeOutOfRange before all. -/
theorem test_decode_range_and_class :
    decodeCell 98 = .error ⟨.unknownOpcode, 0, none⟩ ∧ decodeCell 1100 = .error ⟨.unknownOpcode, 0, none⟩ ∧
    decodeCell (-99) = .error ⟨.opcodeOutOfRange, 0, none⟩ ∧
    decodeCell 100001 = .error ⟨.opcodeOutOfRange, 0, none⟩ := by decide

/-- V-DEC-19, 20, 25, 26, 27, 30: the first illegal position. -/
theorem test_decode_modes :
    decodeCell 11101 = .error ⟨.immediateWrite, 3, none⟩ ∧ decodeCell 103 = .error ⟨.immediateWrite, 1, none⟩ ∧
    decodeCell 10301 = .error ⟨.invalidModeDigit, 1, none⟩ ∧ decodeCell 37101 = .error ⟨.invalidModeDigit, 2, none⟩ ∧
    decodeCell 99999 = .error ⟨.invalidModeDigit, 1, none⟩ ∧ decodeCell 10006 = .error ⟨.invalidModeDigit, 3, none⟩ := by
  decide

/-- The descriptor of R82's worked example, decode(1002), and the select bit of R72. -/
theorem test_descriptor : decodeCell 1002 = .ok ⟨.multiply, .indirect, .immediate, .indirect⟩ ∧
    InstrClass.multiply.arity = 3 ∧ InstrClass.multiply.wpos = some 3 ∧ InstrClass.multiply.isHalt = false ∧
    InstrClass.jumpIfFalse.isJump = true ∧ InstrClass.input.requiresInput = true ∧ InstrClass.halt.sel = 1 <<< 9 := by
  decide

/-- The codes of R27 and R125. -/
theorem test_codes : [Status.running, .awaitingInput, .halted, .faulted].map Status.code = [0, 1, 2, 3] ∧
    [Cause.unknownOpcode, .invalidModeDigit, .immediateWrite, .negativeAddress, .opcodeOutOfRange].map causeCode =
      [1, 2, 3, 4, 5] := by decide

/-- R68's examples. -/
theorem test_encode : encode (.add ⟨.immediate, 1⟩ ⟨.immediate, 1⟩ ⟨.indirect, 0⟩) = [1101, 1, 1, 0] ∧
    encode (.output ⟨.relative, -1⟩) = [204, -1] := by decide

/-! ### One step of each instruction -/

/-- W4: the opcode cell is rewritten, IP still advances by 4. -/
theorem test_add_own_opcode : after [1, 0, 0, 0, 99] [] (fun t => [t.ip, t.mem.read 0]) = some [4, 2] := by decide
/-- V-ADD-4: no wrap at 2^63. -/
theorem test_add_beyond_word : after [1101, 9223372036854775807, 1, 5, 99, 0] [] (fun t => [t.mem.read 5]) =
    some [9223372036854775808] := by decide
/-- V-MUL-3: 2^64. -/
theorem test_multiply_beyond_word : after [1102, 4294967296, 4294967296, 7] [] (fun t => [t.mem.read 7]) =
    some [18446744073709551616] := by decide
/-- V-MUL-1. -/
theorem test_multiply_negative : after [1102, -3, 4, 5, 99, 0] [] (fun t => [t.ip, t.mem.read 5]) = some [4, -12] := by
  decide
/-- V-IN-5: the operand cell is read before it is overwritten. -/
theorem test_input_own_operand : after [3, 1, 99] [-9] (fun t => [t.ip, t.mem.read 1] ++ t.inQ) = some [2, -9] := by decide
/-- V-IN-1: suspension. -/
theorem test_input_empty : nextOf (step (hostReset [3, 0, 4, 0, 99] [])) =
    some ((hostReset [3, 0, 4, 0, 99] []).withStatus .awaitingInput) := by decide
/-- V-OUT-1. -/
theorem test_output_immediate : after [104, -7, 99] [] (fun t => t.ip :: t.outQ) = some [2, -7] := by decide
/-- V-OUT-3: a faulting Output emits nothing. -/
theorem test_output_negative_address : recordAfter (hostReset [4, -1, 99] []) =
    some (.faulted, some ⟨.negativeAddress, 0, some 4, 1, some (-1)⟩) := by decide
/-- V-JT-3: any non-zero condition. -/
theorem test_jumpIfTrue_negative : after [1105, -1, 4, 0, 99] [] (fun t => [t.ip]) = some [4] := by decide
/-- V-JT-5: the target of an untaken jump is resolved. -/
theorem test_jumpIfTrue_untaken_fault : recordAfter (hostReset [105, 0, -1, 99] []) =
    some (.faulted, some ⟨.negativeAddress, 0, some 105, 2, some (-1)⟩) := by decide
/-- V-JF-3: the target is read through memory. -/
theorem test_jumpIfFalse_indirect_target : after [106, 0, 5, 99, 0, 3] [] (fun t => [t.ip]) = some [3] := by decide
/-- V-JF-2. -/
theorem test_jumpIfFalse_untaken : after [1106, -1, 7, 99] [] (fun t => [t.ip]) = some [3] := by decide
/-- V-LT-1. -/
theorem test_lessThan_signed : after [1107, -5, 3, 5, 99, 7] [] (fun t => [t.ip, t.mem.read 5]) = some [4, 1] := by decide
/-- V-LT-3: equal is not less. -/
theorem test_lessThan_equal : after [1107, 3, 3, 5, 99, 7] [] (fun t => [t.mem.read 5]) = some [0] := by decide
/-- V-EQ-3: cells never written are equal. -/
theorem test_equals_unwritten : after [8, 100, 101, 5, 99, 7] [] (fun t => [t.mem.read 5]) = some [1] := by decide
/-- V-EQ-2. -/
theorem test_equals_different : after [1108, 8, 9, 5, 99, 7] [] (fun t => [t.mem.read 5]) = some [0] := by decide
/-- V-ARB-2: no fault for a negative base. -/
theorem test_adjust_negative : after [109, -5, 99] [] (fun t => [t.ip, t.rb]) = some [2, -5] := by decide
/-- V-ARB-4, its second step: the operand is read with the old base. -/
theorem test_adjust_relative : (nextOf (step (((hostReset [109, 3, 209, -2, 204, -6, 99] []).withIp 2).withRb 3))).map
    (fun t => [t.ip, t.rb]) = some [4, 6] := by decide
/-- V-HLT-1. -/
theorem test_halt : nextOf (step (hostReset [99] [])) = some (((hostReset [99] []).withIp 1).withStatus .halted) := by
  decide
/-- V-HLT-3. -/
theorem test_halt_with_mode_digit : recordAfter (hostReset [1099] []) =
    some (.faulted, some ⟨.invalidModeDigit, 0, some 1099, 2, none⟩) := by decide

/-! ### The step, the faults, the host -/

/-- V-FLT-5 and V-FLT-9: the empty image, and operand 1 before operand 3. -/
theorem test_fault_priority : recordAfter State.reset = some (.faulted, some ⟨.unknownOpcode, 0, some 0, 0, none⟩) ∧
    recordAfter (hostReset [20001, -1, 0, -1, 99] []) =
      some (.faulted, some ⟨.negativeAddress, 0, some 20001, 1, some (-1)⟩) := by decide
/-- V-JT-4, its second step: the fetch at a negative IP. -/
theorem test_fetch_negative : recordAfter ((hostReset [1105, 1, -3] []).withIp (-3)) =
    some (.faulted, some ⟨.negativeAddress, -3, none, 0, some (-3)⟩) := by decide
/-- V-IN-4: the fault wins over the empty queue. -/
theorem test_input_fault_first : recordAfter (hostReset [203, -1, 99] []) =
    some (.faulted, some ⟨.negativeAddress, 0, some 203, 1, some (-1)⟩) := by decide
/-- V-HLT-6: a step of a Halted instance has no effect. -/
theorem test_step_halted : nextOf (step ((hostReset [99] []).withStatus .halted)) =
    some ((hostReset [99] []).withStatus .halted) := by decide
/-- V-IN-8: the push wakes the suspended Input, which then takes the value. -/
theorem test_push_resumes :
    (nextOf (step (pushInput 6 ((hostReset [3, 0, 99] []).withStatus .awaitingInput)))).map
      (fun t => [t.ip, t.mem.read 0] ++ t.inQ) = some [2, 6] := by decide
/-- A word of the opcode table decodes, and runs as the first instruction after reset. -/
theorem test_table_word : decodeTableWord 8 4 = some (.output ⟨.indirect, 0⟩) ∧ decodeTableWord 8 98 = none ∧
    (nextOf (step (State.reset.withFetchWord 8 4))).map (fun t => t.ip :: t.outQ) = some [2, 4] := by decide
theorem test_memory_canonical : ((hostReset [1, 0, 5] []).mem.write 0 0).write 7 2 = [(2, 5), (7, 2)] := by decide

/-! ### Witnesses: for each statement with hypotheses, values that meet all of them together -/

/-- Mem[0] = 7, Mem[3] = -4, RB = -2, InQ = [9]: the state of the operand witnesses. -/
def sample : State := (hostReset [7, 0, 0, -4] [9]).withRb (-2)

theorem witness_DecodeEncodeRoundTrip : (Instr.input ⟨.relative, -5⟩).wellFormed = true := by decide
theorem witness_DecodedCellsAreTheEncoding : decode [203, -5, 8] = .ok (.input ⟨.relative, -5⟩, [8]) := by decide
theorem witness_ModeDigitsAreDecimalPlaces : 99 < 100 ∧ 9 < 10 ∧ 0 < 10 ∧ 1 ≤ 3 ∧ 9999 < 10 ^ (3 + 1) ∧ 99 < 10 ^ (1 + 1) := by
  decide
theorem witness_LowTwoDigitsSelectClass : (∃ d, decodeCell 22208 = .ok d) ∧ (∃ d, decodeCell 8 = .ok d) ∧
    (22208 : Int) % 100 = 8 % 100 := ⟨⟨_, rfl⟩, ⟨_, rfl⟩, rfl⟩
/-- One witness for each clause, at its boundary: 100000; 98; 11101 at position 3 and 199 at position 1; 99. -/
theorem witness_DecoderReportsFirstFault : (99999 : Int) < 100000 ∧ InstrClass.ofNumber (98 % 100) = none ∧
    (InstrClass.ofNumber (11101 % 100) = some .add ∧ (∀ j : Fin 4, 0 < j → j < 3 → positionLegal .add 11101 j) ∧
      ¬ positionLegal .add 11101 3) ∧
    (InstrClass.ofNumber (199 % 100) = some .halt ∧ (∀ j : Fin 4, 0 < j → j < 1 → positionLegal .halt 199 j) ∧
      ¬ positionLegal .halt 199 1) ∧
    (InstrClass.ofNumber (99 % 100) = some .halt ∧ ∀ j : Fin 4, 0 < j → positionLegal .halt 99 j) :=
  ⟨by decide, by decide, ⟨by decide, by decide, by decide⟩, ⟨by decide, by decide, by decide⟩, by decide, by decide⟩
theorem witness_ImmediateWriteOnlyFromWriters : decodeCell 103 = .error ⟨.immediateWrite, 1, none⟩ ∧
    sample.faultRec = none ∧ (nextOf (exec (.input ⟨.immediate, 0⟩) sample)).map (fun t => t.faultRec.map (·.cause)) =
      some (some .immediateWrite) := by decide
theorem witness_WriteThenReadAgrees : sample.mem.wf = true ∧
    resolveWriteAddress 3 ⟨.relative, 5⟩ 100 = .ok 105 := by decide
theorem witness_WriteResolutionIsUniform :
    (Instr.input ⟨.relative, 2⟩).writeOperand = some ⟨.relative, 2⟩ ∧
    (nextOf (exec (.input ⟨.relative, 2⟩) sample)).map (fun t => t.status) = some .running := by decide
theorem witness_CanonicalMemoryIsItsReads : Memory.wf [(0, 7), (3, -4)] = true ∧
    ∀ a, Memory.read [(0, 7), (3, -4)] a = Memory.read [(0, 7), (3, -4)] a := ⟨by decide, fun _ => rfl⟩

/-- The operands at their boundary: address 0 in both memory modes, and any Immediate. It serves the results of Add,
Multiply, LessThan and Equals, the commutation, and the later clauses of their faults. -/
theorem witness_AddStoresExactSum : readable ⟨.relative, 2⟩ sample ∧ readable ⟨.immediate, -9⟩ sample ∧
    writable ⟨.indirect, 0⟩ sample := by decide
theorem witness_MultiplyStoresExactProduct : readable ⟨.indirect, 3⟩ sample ∧ readable ⟨.immediate, -9⟩ sample ∧
    writable ⟨.relative, 2⟩ sample := by decide
theorem witness_LessThanStoresOneOrZero : readable ⟨.indirect, 3⟩ sample ∧ readable ⟨.indirect, 0⟩ sample ∧
    writable ⟨.indirect, 0⟩ sample := by decide
theorem witness_EqualsStoresOneOrZero : readable ⟨.immediate, 0⟩ sample ∧ readable ⟨.relative, 100⟩ sample ∧
    writable ⟨.relative, 2⟩ sample := by decide
theorem witness_AddAndMultiplyCommute : readable ⟨.indirect, 3⟩ sample ∧ readable ⟨.relative, 2⟩ sample ∧
    writable ⟨.indirect, 0⟩ sample := by decide
theorem witness_InputStoresQueueHead : writable ⟨.relative, 2⟩ sample ∧ sample.inQ = [9] := by decide
theorem witness_InputSuspendsOnEmptyQueue : writable ⟨.indirect, 0⟩ (sample.withInQ []) ∧ (sample.withInQ []).inQ = [] := by
  decide
theorem witness_OutputAppendsValue : readable ⟨.relative, 2⟩ sample := by decide
theorem witness_JumpIfTrueSetsPointer : readable ⟨.indirect, 0⟩ sample ∧ readable ⟨.immediate, -3⟩ sample := by decide
theorem witness_JumpIfFalseSetsPointer : readable ⟨.immediate, 0⟩ sample ∧ readable ⟨.indirect, 3⟩ sample := by decide
theorem witness_AdjustAddsToRelativeBase : readable ⟨.relative, 5⟩ sample := by decide
/-- One for each clause: operand 1, 2, 3 at address -1, and an Immediate target. -/
theorem witness_StoringOperandsFaultInOrder : Instr.add ∈ [Instr.add, Instr.multiply, Instr.lessThan, Instr.equals] ∧
    ¬ readable ⟨.indirect, -1⟩ sample ∧
    (readable ⟨.indirect, 0⟩ sample ∧ ¬ readable ⟨.relative, 1⟩ sample) ∧
    (readable ⟨.immediate, -1⟩ sample ∧ readable ⟨.indirect, 0⟩ sample ∧ ¬ writable ⟨.relative, 1⟩ sample ∧
      Mode.relative ≠ .immediate) ∧
    (readable ⟨.immediate, -1⟩ sample ∧ (Operand.mk .immediate 0).mode = .immediate) :=
  ⟨List.mem_cons_self, by decide, by decide, by decide, by decide⟩
theorem witness_JumpOperandsFaultEvenUntaken : Instr.jumpIfTrue ∈ [Instr.jumpIfTrue, Instr.jumpIfFalse] ∧
    ¬ readable ⟨.relative, 1⟩ sample ∧ (readable ⟨.immediate, 0⟩ sample ∧ ¬ readable ⟨.indirect, -1⟩ sample) :=
  ⟨List.mem_cons_self, by decide, by decide⟩
theorem witness_SingleReadFaultsOnNegativeAddress : Instr.output ∈ [Instr.output, Instr.adjustRelativeBase] ∧
    ¬ readable ⟨.relative, 1⟩ sample := ⟨List.mem_cons_self, by decide⟩
theorem witness_InputTargetFaultBeatsEmptyQueue : (¬ writable ⟨.indirect, -1⟩ sample ∧ Mode.indirect ≠ .immediate) ∧
    (Operand.mk .immediate 0).mode = .immediate := by decide
theorem witness_StoringInstructionsFrame : sample.mem.wf = true ∧
    (nextOf (exec (.equals ⟨.indirect, 0⟩ ⟨.immediate, 7⟩ ⟨.relative, 2⟩) sample)).map (fun t => t.status) =
      some .running ∧
    (nextOf (exec (.lessThan ⟨.indirect, 0⟩ ⟨.immediate, 7⟩ ⟨.relative, 1⟩) sample)).map (fun t => t.status) =
      some .faulted := by decide
theorem witness_InputFrame : sample.mem.wf = true ∧
    (nextOf (exec (.input ⟨.indirect, 0⟩) sample)).map (fun t => t.status) = some .running ∧
    (nextOf (exec (.input ⟨.indirect, 0⟩) (sample.withInQ []))).map (fun t => t.status) = some .awaitingInput ∧
    (nextOf (exec (.input ⟨.indirect, -1⟩) sample)).map (fun t => t.status) = some .faulted := by decide
theorem witness_NonStoringInstructionsFrame : (Instr.output ⟨.indirect, 3⟩).writeOperand = none ∧
    (nextOf (exec (.output ⟨.indirect, 3⟩) sample)).map (fun t => t.status) = some .running ∧
    (nextOf (exec (.adjustRelativeBase ⟨.relative, 0⟩) sample)).map (fun t => t.status) = some .faulted ∧
    (nextOf (exec .halt sample)).map (fun t => t.status) = some .halted := by decide

theorem witness_StepRunsDecodedInstruction : (hostReset [3, 0] []).status = .running ∧ 0 ≤ (hostReset [3, 0] []).ip ∧
    decode (cellsAtIp (hostReset [3, 0] [])) = .ok (.input ⟨.indirect, 0⟩, [0, 0]) := by decide
theorem witness_UndecodableCellFaults : (hostReset [100000] []).status = .running ∧ 0 ≤ (hostReset [100000] []).ip ∧
    decodeCell ((hostReset [100000] []).mem.read 0) = .error ⟨.opcodeOutOfRange, 0, none⟩ := by decide
theorem witness_NegativePointerFaultsAtFetch : (sample.withIp (-1)).status = .running ∧ (sample.withIp (-1)).ip < 0 := by
  decide
/-- The numbers 0, 10 and 98 at the edges of the unknown ones, and a state that fetches 98. -/
theorem witness_UnknownOpcodeIsFatal : (0 : Int) % 100 = 0 ∧ (10 ≤ (10 : Int) % 100 ∧ (99998 : Int) % 100 ≤ 98) ∧
    (99998 : Int) ≤ 99999 ∧ (hostReset [99998] []).status = .running ∧ 0 ≤ (hostReset [99998] []).ip ∧
    (hostReset [99998] []).mem.read 0 = 99998 := by decide
theorem witness_StepsOfStoppedInstanceHaveNoEffect : (sample.withStatus .halted).status ≠ .running := by decide
theorem witness_OnlyResetOrInputRevives :
    ((nextOf (act (.push 6) (sample.withStatus .awaitingInput))).map (fun t => t.status) = some .running ∧
      (sample.withStatus .awaitingInput).status ≠ .running) ∧
    ((sample.withStatus .faulted).status = .faulted ∧
      nextOf (step (sample.withStatus .faulted)) = some (sample.withStatus .faulted)) ∧
    (((sample.withFaultRec (some ⟨.unknownOpcode, 0, some 0, 0, none⟩)).faultRec.isSome = true) ∧
      (nextOf (step (sample.withFaultRec (some ⟨.unknownOpcode, 0, some 0, 0, none⟩)))).isSome = true) := by decide
theorem witness_FaultsArePrecise : sample.status = .running ∧
    (nextOf (step (sample.withIp 1))).map (fun t => t.status) = some .faulted := by decide
theorem witness_SuspendedInputResumes : (hostReset [3, 0] []).status = .running ∧
    (nextOf (step (hostReset [3, 0] []))).map (fun t => t.status) = some .awaitingInput := by decide
/-- A jump, a class that is no jump, and a suspension. -/
theorem witness_PointerAdvanceOfAStep :
    (hostReset [1105, 1, 7] []).status = .running ∧ instrAtIp (.jumpIfTrue ⟨.immediate, 1⟩ ⟨.immediate, 7⟩) (hostReset [1105, 1, 7] []) ∧
    (nextOf (step (hostReset [1105, 1, 7] []))).map (fun t => t.status) = some .running ∧
    instrAtIp .halt (hostReset [99] []) ∧ (nextOf (step (hostReset [99] []))).map (fun t => t.status) = some .halted ∧
    instrAtIp (.input ⟨.indirect, 0⟩) (hostReset [3, 0] []) ∧
    (nextOf (step (hostReset [3, 0] []))).map (fun t => t.status) = some .awaitingInput :=
  ⟨by decide, ⟨by decide, [0], by decide⟩, by decide, ⟨by decide, [0, 0, 0], by decide⟩, by decide,
    ⟨by decide, [0, 0], by decide⟩, by decide⟩
theorem witness_OnlyAdjustMutatesRelativeBase : (hostReset [109, 1] []).rb = 0 ∧
    (nextOf (step (hostReset [109, 1] []))).map (fun t => t.rb) = some 1 := by decide
theorem witness_OnlyWriteOperandsChangeMemory : (hostReset [1, 0, 0, 0] []).mem.wf = true ∧
    (hostReset [1, 0, 0, 0] []).mem.read 0 = 1 ∧
    (nextOf (step (hostReset [1, 0, 0, 0] []))).map (fun t => t.mem.read 0) = some 2 := by decide
theorem witness_ChannelsMoveOneValueInOrder : (nextOf (step (hostReset [3, 0] [42]))).map (fun t => t.inQ) = some [] ∧
    (nextOf (step (hostReset [104, 5] []))).map (fun t => t.outQ) = some [5] := by decide
/-- Two instances that differ in the tail of InQ and in OutQ only. -/
theorem witness_StepDependsOnlyOnItsInputs : (hostReset [3, 0] [1, 2]).status = .running ∧
    ((hostReset [3, 0] [1]).withOutQ [8]).status = .running ∧
    (hostReset [3, 0] [1, 2]).ip = ((hostReset [3, 0] [1]).withOutQ [8]).ip ∧
    (hostReset [3, 0] [1, 2]).rb = ((hostReset [3, 0] [1]).withOutQ [8]).rb ∧
    (hostReset [3, 0] [1, 2]).mem = ((hostReset [3, 0] [1]).withOutQ [8]).mem ∧
    (hostReset [3, 0] [1, 2]).inQ.head? = ((hostReset [3, 0] [1]).withOutQ [8]).inQ.head? ∧
    (nextOf (step (hostReset [3, 0] [1, 2]))).isSome ∧ (nextOf (step ((hostReset [3, 0] [1]).withOutQ [8]))).isSome := by
  decide
/-- A state that no reset leaves: Running at IP 2, RB -2, outputs pending. -/
theorem witness_StepKeepsInvariant : StateInvariant ((sample.withIp 2).withOutQ [1]) ∧
    (nextOf (step ((sample.withIp 2).withOutQ [1]))).isSome :=
  ⟨⟨by decide, by decide, fun _ h => (nomatch h), fun h => absurd h (by decide)⟩, by decide⟩
theorem witness_ReachableStatesMeetInvariant :
    (nextOf (runSchedule [.issueStep, .push 6, .issueStep] (hostReset [3, 0, 99] []))).map (fun t => t.ip) = some 2 := by
  decide
theorem witness_HostChannelActions : StateInvariant (sample.withStatus .halted) :=
  ⟨by decide, by decide, fun _ h => (nomatch h), fun h => absurd h (by decide)⟩

end Sys2Proof.Tests
end

section
/-! PROOFS. The instruction the fetch answers is the one at IP (42_dispatch_step.md R95, R100); the effect an instruction
hands to the commit (R98 to R100); and, from both, what RB is used for and what changes it (10_state.md R24). -/

namespace Sys2Proof.Machine

/-! ### The fetch answers the instruction at IP -/

theorem arity_le_three (c : InstrClass) : c.arity ≤ 3 := by cases c <;> decide

/-- An instruction depends on no more than three raw operands. -/
theorem assemble_congr (d : Descriptor) {raw raw' : Nat → Int} (h1 : raw 1 = raw' 1) (h2 : raw 2 = raw' 2)
    (h3 : raw 3 = raw' 3) : assemble d raw = assemble d raw' := by
  unfold assemble
  rw [h1, h2, h3]

/-- The cells at IP hold an instruction exactly when the first of them decodes: they are never too few. -/
theorem decode_cellsAtIp_ok_iff {i : Instr} {s : State} : (∃ rest, decode (cellsAtIp s) = .ok (i, rest)) ↔
    ∃ d, decodeCell (s.mem.read s.ip.toNat) = .ok d ∧ i = assemble d (fun k => s.mem.read (s.ip.toNat + k)) := by
  cases hd : decodeCell (s.mem.read s.ip.toNat) with
  | error r => simp [cellsAtIp, decode, hd]
  | ok d =>
    have enough : ¬ 3 < d.cls.arity := not_lt.2 (arity_le_three d.cls)
    have same : assemble d (fun k => s.mem.read (s.ip.toNat + k)) = assemble d (fun k =>
        [s.mem.read (s.ip.toNat + 1), s.mem.read (s.ip.toNat + 2), s.mem.read (s.ip.toNat + 3)].getD (k - 1)
          Config.neverWritten) := assemble_congr d rfl rfl rfl
    simp [cellsAtIp, decode, hd, enough, same, eq_comm]

/-- The fetch answers an instruction exactly when it stands at IP. -/
theorem fetchInstr_ok_iff {i : Instr} {s : State} : fetchInstr s = .ok i ↔ instrAtIp i s := by
  rw [instrAtIp, decode_cellsAtIp_ok_iff]
  constructor
  · exact fetchInstr_ok
  · rintro ⟨hip, d, hd, rfl⟩
    simp [fetchInstr, not_lt.2 hip, hd]

/-! ### What a successful routing resolved -/

section
variable {a b c : Operand} {s : State} {e : Effect}

theorem resolveWriteAddress_error {pos : Fin 4} (h : ¬ writable a s) :
    ∃ r, resolveWriteAddress pos a s.rb = .error r := by
  cases hr : resolveWriteAddress pos a s.rb with
  | error r => exact ⟨r, rfl⟩
  | ok wa => exact absurd (resolveWriteAddress_ok_iff.1 hr).1 h

theorem routeRead_ok_iff {f : Int → Effect} :
    routeRead a s f = .ok e ↔ readable a s ∧ e = f (operandValue a s) := by
  by_cases ha : readable a s
  · simp [routeRead_ok ha, ha, eq_comm]
  · simp [routeRead_fault ha, ha]

theorem routeInput_ok_iff {f : Nat → Option Int → Effect} :
    routeInput a s f = .ok e ↔ writable a s ∧ e = f (operandAddress a s).toNat s.inQ.head? := by
  by_cases ha : writable a s
  · simp [routeInput_ok ha, ha, eq_comm]
  · obtain ⟨r, hr⟩ := resolveWriteAddress_error (pos := 1) ha
    simp [routeInput, hr, ha]

theorem routeReadRead_ok_iff {f : Int → Int → Effect} : routeReadRead a b s f = .ok e ↔
    readable a s ∧ readable b s ∧ e = f (operandValue a s) (operandValue b s) := by
  by_cases ha : readable a s
  · by_cases hb : readable b s
    · simp [routeReadRead_ok ha hb, ha, hb, eq_comm]
    · simp [routeReadRead, resolveRead_readable ha, resolveRead_not_readable hb, hb]
  · simp [routeReadRead, resolveRead_not_readable ha, ha]

theorem routeReadReadWrite_ok_iff {f : Int → Int → Nat → Effect} : routeReadReadWrite a b c s f = .ok e ↔
    readable a s ∧ readable b s ∧ writable c s ∧
      e = f (operandValue a s) (operandValue b s) (operandAddress c s).toNat := by
  by_cases ha : readable a s
  · by_cases hb : readable b s
    · by_cases hc : writable c s
      · simp [routeReadReadWrite_ok ha hb hc, ha, hb, hc, eq_comm]
      · obtain ⟨r, hr⟩ := resolveWriteAddress_error (pos := 3) hc
        simp [routeReadReadWrite, resolveRead_readable ha, resolveRead_readable hb, hr, hc]
    · simp [routeReadReadWrite, resolveRead_readable ha, resolveRead_not_readable hb, hb]
  · simp [routeReadReadWrite, resolveRead_not_readable ha, ha]

end

/-! ### The effect of an instruction -/

/-- The effect an instruction's behaviour gives at a state, or the fault of its operands: what `exec` concludes with
(`exec_eq_conclude`). -/
def effectOf (i : Instr) (s : State) : Except FaultReport Effect :=
  match i with
  | .add a b c => routeReadReadWrite a b c s behaveAdd
  | .multiply a b c => routeReadReadWrite a b c s behaveMultiply
  | .input a => routeInput a s behaveInput
  | .output a => routeRead a s behaveOutput
  | .jumpIfTrue a b => routeReadRead a b s behaveJumpIfTrue
  | .jumpIfFalse a b => routeReadRead a b s behaveJumpIfFalse
  | .lessThan a b c => routeReadReadWrite a b c s behaveLessThan
  | .equals a b c => routeReadReadWrite a b c s behaveEquals
  | .adjustRelativeBase a => routeRead a s behaveAdjustRelativeBase
  | .halt => .ok behaveHalt

/-- Every meaning ends alike: its effect committed, or its fault entered (42_dispatch_step.md R100). -/
theorem exec_eq_conclude (i : Instr) (s : State) :
    exec i s = conclude (opcodeCell i) i.cls.arity (effectOf i s) s := by
  cases i <;> rfl

/-- What runs either enters the fault of its operands or commits its effect. -/
theorem exec_next_cases {i : Instr} {s t : State} (h : exec i s = .next t) :
    (∃ r, effectOf i s = .error r ∧ t = enterFault (some (opcodeCell i)) r s) ∨
      ∃ e, effectOf i s = .ok e ∧ t = commit e i.cls.arity s := by
  rw [exec_eq_conclude] at h
  cases he : effectOf i s with
  | error r =>
    rw [he] at h
    injection h with h
    exact .inl ⟨r, rfl, h.symm⟩
  | ok e =>
    rw [he] at h
    injection h with h
    exact .inr ⟨e, rfl, h.symm⟩

/-! ### The relative base -/

/-- RB relocates a read: both operands have the effective address raw + rb (41_resolver.md R84, R85). -/
theorem resolveRead_relative (pos : Fin 4) (raw rb : Int) (m : Memory) :
    resolveRead pos ⟨.relative, raw⟩ rb m = resolveRead pos ⟨.indirect, raw + rb⟩ rb m := rfl

/-- RB relocates a write target in the same way (41_resolver.md R87). -/
theorem resolveWriteAddress_relative (pos : Fin 4) (raw rb : Int) :
    resolveWriteAddress pos ⟨.relative, raw⟩ rb = resolveWriteAddress pos ⟨.indirect, raw + rb⟩ rb := rfl

theorem enterFault_rb (op : Option Int) (r : FaultReport) (s : State) : (enterFault op r s).rb = s.rb := rfl

/-- The one row of the commit table that writes RB is that of `adjust` (42_dispatch_step.md R103). -/
theorem commit_rb_changed {e : Effect} {n : Nat} {s : State} (h : (commit e n s).rb ≠ s.rb) :
    ∃ d, e = .adjust d ∧ (commit e n s).rb = s.rb + d := by
  cases e with
  | adjust d => exact ⟨d, rfl, rfl⟩
  | store | inputStore | await | emit | jump | next | halt => exact absurd rfl h

/-- The effect `adjust` comes from AdjustRelativeBase only, with its operand's value (47_base_halt.md R123). -/
theorem effectOf_eq_adjust {i : Instr} {s : State} {d : Int} (h : effectOf i s = .ok (.adjust d)) :
    ∃ a, i = .adjustRelativeBase a ∧ d = operandValue a s := by
  cases i with
  | adjustRelativeBase a =>
    obtain ⟨-, he⟩ := routeRead_ok_iff.1 h
    exact ⟨a, rfl, Effect.adjust.inj he⟩
  | add | multiply | lessThan | equals =>
    obtain ⟨-, -, -, he⟩ := routeReadReadWrite_ok_iff.1 h
    exact absurd he Effect.noConfusion
  | jumpIfTrue a b =>
    obtain ⟨-, -, he⟩ := routeReadRead_ok_iff.1 h
    unfold behaveJumpIfTrue at he
    split at he <;> cases he
  | jumpIfFalse a b =>
    obtain ⟨-, -, he⟩ := routeReadRead_ok_iff.1 h
    unfold behaveJumpIfFalse at he
    split at he <;> cases he
  | input a =>
    obtain ⟨-, he⟩ := routeInput_ok_iff.1 h
    unfold behaveInput at he
    split at he <;> cases he
  | output a =>
    obtain ⟨-, he⟩ := routeRead_ok_iff.1 h
    cases he
  | halt => cases h

/-- An instruction that changes RB is an AdjustRelativeBase, and adds its operand's value. -/
theorem exec_rb_changed {i : Instr} {s t : State} (h : exec i s = .next t) (hrb : t.rb ≠ s.rb) :
    ∃ a, i = .adjustRelativeBase a ∧ t.rb = s.rb + operandValue a s := by
  obtain ⟨r, -, rfl⟩ | ⟨e, he, rfl⟩ := exec_next_cases h
  · exact absurd (enterFault_rb _ r s) hrb
  · obtain ⟨d, rfl, hd⟩ := commit_rb_changed hrb
    obtain ⟨a, ha, rfl⟩ := effectOf_eq_adjust he
    exact ⟨a, ha, hd⟩

/-- A step that changes RB runs an AdjustRelativeBase at IP. -/
theorem step_rb_changed {s t : State} (h : step s = .next t) (hrb : t.rb ≠ s.rb) :
    ∃ a, instrAtIp (.adjustRelativeBase a) s ∧ t.rb = s.rb + operandValue a s := by
  by_cases hs : s.status = .running
  · obtain ⟨f, -, rfl⟩ | ⟨i, hf, hi⟩ := step_cases hs h
    · exact absurd (enterFault_rb _ _ s) hrb
    · obtain ⟨a, rfl, ha⟩ := exec_rb_changed hi hrb
      exact ⟨a, fetchInstr_ok_iff.1 hf, ha⟩
  · rw [step_not_running hs] at h
    injection h with h
    exact absurd (h ▸ rfl) hrb

theorem pushInput_rb (v : Int) (s : State) : (pushInput v s).rb = s.rb := by
  by_cases hs : s.status = .awaitingInput
  · rw [pushInput_awaiting hs]
  · rw [pushInput_not_awaiting hs]

theorem takeOutput_rb (n : Nat) (s : State) : (takeOutput n s).rb = s.rb := State.withOutQ_rb s _

/-- Settles O43: Relative is Indirect at raw + rb by the resolver's own definition, and of the rows of the commit table
only that of the effect `adjust` writes RB, an effect that only AdjustRelativeBase gives. -/
theorem onlyAdjustMutatesRelativeBase : Obligations.OnlyAdjustMutatesRelativeBase := by
  unfold Obligations.OnlyAdjustMutatesRelativeBase
  exact ⟨fun pos raw rb m => ⟨resolveRead_relative pos raw rb m, resolveWriteAddress_relative pos raw rb⟩,
    fun _ _ => step_rb_changed, pushInput_rb, takeOutput_rb⟩

end Sys2Proof.Machine
end

section
/-! PROOFS. What memory holds after a reset and a sequence of writes (20_memory.md R39). -/

namespace Sys2Proof.Machine

/-! ### Reads of a loaded image -/

/-- The image's first cell is at the address it is loaded from, and the others follow. -/
theorem Memory.read_load_cons (a : Nat) (w : Int) (ws : List Int) (x : Nat) :
    (Memory.load a (w :: ws)).read x = if x = a then w else (Memory.load (a + 1) ws).read x :=
  Memory.read_consCell (fun _ hc => Memory.mem_load hc) x

/-- The address a + n reads the image's cell n, and 0 beyond the image (70_reset_and_hazards.md R144). -/
theorem Memory.read_load_add (ws : List Int) (a n : Nat) : (Memory.load a ws).read (a + n) = ws.getD n 0 := by
  induction ws generalizing a n with
  | nil => rfl
  | cons w ws ih =>
    rw [Memory.read_load_cons]
    cases n with
    | zero => simp
    | succ n =>
      rw [if_neg (by omega), show a + (n + 1) = a + 1 + n by omega, ih, List.getD_cons_succ]

/-- After a reset the cell at a is the image's, and 0 beyond the image. -/
theorem read_hostReset_mem (image inputs : List Int) (a : Nat) :
    (hostReset image inputs).mem.read a = image.getD a 0 := by
  have h := Memory.read_load_add image 0 a
  rwa [Nat.zero_add] at h

theorem hostReset_mem_wf (image inputs : List Int) : (hostReset image inputs).mem.wf :=
  Memory.load_wf image 0

/-! ### Reads after a sequence of writes -/

/-- A read after a sequence of writes: the value of the last write to the address, and what was there before when none
of the writes is to it. By induction on the writes, from any canonical memory: the first write is what was there before
for the writes after it. -/
theorem Memory.read_foldl_write {m : Memory} (hm : m.wf) (writes : List (Nat × Int)) (a : Nat) :
    (writes.foldl (fun m w => m.write w.1 w.2) m).read a =
      (writes.reverse.find? (fun w => w.1 == a)).elim (m.read a) Prod.snd := by
  induction writes generalizing m with
  | nil => rfl
  | cons w ws ih =>
    rw [List.foldl_cons, ih (Memory.write_wf hm w.1 w.2), List.reverse_cons, List.find?_append]
    cases ws.reverse.find? (fun w => w.1 == a) with
    | some last => rfl
    | none =>
      by_cases hw : w.1 = a
      · subst hw
        simp [Memory.read_write_same hm]
      · simp [Memory.read_write_other hm (Ne.symm hw), hw]

/-- Settles O12: a reset's memory is canonical and reads as the image, and the writes after it are a sequence of writes
on that memory. -/
theorem readReturnsLastWrite : Obligations.ReadReturnsLastWrite := by
  unfold Obligations.ReadReturnsLastWrite
  intro image writes a
  rw [Memory.read_foldl_write (hostReset_mem_wf image []), read_hostReset_mem]
  cases writes.reverse.find? (fun w => w.1 == a) with
  | some last => rfl
  | none =>
    change image.getD a 0 = if h : a < image.length then image[a] else 0
    split
    · exact List.getD_eq_getElem image 0 ‹_›
    · exact List.getD_eq_default image 0 (not_lt.1 ‹_›)

end Sys2Proof.Machine
end

section
/-! PROOFS. The instruction number `opcode mod 100` and the class (30_encoding.md R55, R63): it alone fixes the class of
a cell that decodes, and a number of no class is a fault of every step that fetches it, which no later step leaves. -/

namespace Sys2Proof

/-! ### Instruction numbers -/

/-- No two classes have the same number, since `ofNumber` answers each class for its own. -/
theorem InstrClass.number_injective : Function.Injective InstrClass.number := fun c c' h =>
  Option.some.inj <| calc
    some c = InstrClass.ofNumber c.number := (InstrClass.ofNumber_eq_some.2 rfl).symm
    _ = some c' := InstrClass.ofNumber_eq_some.2 h

/-- The numbers in use (30_encoding.md R61). -/
theorem InstrClass.number_range (c : InstrClass) : (1 ≤ c.number ∧ c.number ≤ 9) ∨ c.number = 99 := by
  cases c <;> decide

/-- The numbers 0 and 10..98 select no class (30_encoding.md R63). -/
theorem InstrClass.ofNumber_eq_none {n : Nat} (h : n = 0 ∨ 10 ≤ n ∧ n ≤ 98) : InstrClass.ofNumber n = none := by
  cases hc : InstrClass.ofNumber n with
  | none => rfl
  | some c =>
    have hn : n = c.number := InstrClass.ofNumber_eq_some.1 hc
    have := c.number_range
    omega

/-! ### The number of an opcode cell -/

/-- The number of the class a cell decodes to is the cell mod 100. -/
theorem number_cls_of_decodeCell {op : Int} {d : Descriptor} (h : decodeCell op = .ok d) :
    (d.cls.number : Int) = op % 100 := by
  obtain ⟨h0, -, hn, -⟩ := decodeCell_ok.1 h
  omega

/-- A cell in range whose number selects no class is an UnknownOpcode, whatever its other digits
(40_decoder.md R82). -/
theorem decodeCell_unknownOpcode {op : Int} (h0 : 0 ≤ op) (hmax : op ≤ 99999)
    (hc : InstrClass.ofNumber (op % 100).toNat = none) : decodeCell op = .error ⟨.unknownOpcode, 0, none⟩ := by
  have inRange : ¬ (op < 0 ∨ Config.maxOpcode < op) := by simp only [Config.maxOpcode]; omega
  have hmod : (op % 100).toNat = op.toNat % 100 := Int.toNat_emod h0 (by decide)
  unfold decodeCell
  rw [if_neg inRange, ← hmod, hc]

/-- Settles O5: the number of the decoded class is the cell mod 100, and the number table is injective. -/
theorem lowTwoDigitsSelectClass : Obligations.LowTwoDigitsSelectClass := by
  unfold Obligations.LowTwoDigitsSelectClass
  constructor
  · intro op d hd
    have hn := number_cls_of_decodeCell hd
    have hlt := d.cls.number_lt
    exact ⟨by omega, by omega, hn⟩
  · intro op op' d d' hd hd' hmod
    refine InstrClass.number_injective (Int.ofNat.inj ?_)
    calc (d.cls.number : Int) = op % 100 := number_cls_of_decodeCell hd
      _ = op' % 100 := hmod
      _ = d'.cls.number := (number_cls_of_decodeCell hd').symm

end Sys2Proof

namespace Sys2Proof.Machine

/-! ### Steps that fetch a cell that does not decode, and steps after them -/

theorem enterFault_status (op : Option Int) (r : FaultReport) (s : State) :
    (enterFault op r s).status = .faulted := rfl

/-- A Running step that fetches a cell that does not decode enters the decoder's fault, with the cell in the record
(42_dispatch_step.md R100, R102). -/
theorem step_decodeCell_error {s : State} {r : FaultReport} (hs : s.status = .running) (hip : 0 ≤ s.ip)
    (hd : decodeCell (s.mem.read s.ip.toNat) = .error r) :
    step s = .next (enterFault (some (s.mem.read s.ip.toNat)) r s) := by
  have hf : fetchInstr s = .error ⟨some (s.mem.read s.ip.toNat), r⟩ := by
    simp [fetchInstr, not_lt.2 hip, hd]
  rw [step_running hs, stepRunning, hf]
  rfl

/-- However many steps are issued to a machine that is not Running, its state stays (42_dispatch_step.md R106). -/
theorem runSchedule_replicate_issueStep {s : State} (hs : s.status ≠ .running) (k : Nat) :
    runSchedule (List.replicate k .issueStep) s = .next s := by
  induction k with
  | zero => rfl
  | succ k ih =>
    rw [List.replicate_succ, runSchedule, act, step_not_running hs]
    exact ih

/-- Settles O37: the step enters the decoder's UnknownOpcode fault, and the state it enters is not Running. -/
theorem unknownOpcodeIsFatal : Obligations.UnknownOpcodeIsFatal := by
  unfold Obligations.UnknownOpcodeIsFatal
  intro op h0 hmax hnum
  have hc : InstrClass.ofNumber (op % 100).toNat = none := InstrClass.ofNumber_eq_none (by omega)
  refine ⟨hc, fun s hs hip hread => ?_⟩
  have hd : decodeCell (s.mem.read s.ip.toNat) = .error ⟨.unknownOpcode, 0, none⟩ :=
    hread ▸ decodeCell_unknownOpcode h0 hmax hc
  refine ⟨_, _, step_decodeCell_error hs hip hd, enterFault_status _ _ s, rfl, rfl, fun k u hu => ?_⟩
  rw [runSchedule_replicate_issueStep (by simp [enterFault_status]) k] at hu
  injection hu with hu
  exact hu.symm

end Sys2Proof.Machine
end

section
/-! PROOFS. The mode digits of an opcode cell as places of its decimal numeral (40_decoder.md R73). -/

namespace Sys2Proof

/-- The mode digit of operand n of a cell with no digit at place n + 2 is 0. -/
theorem modeDigit_of_lt {op n : Nat} (h : op < 10 ^ (n + 1)) : modeDigit op n = 0 := by
  have hq : op / 10 ^ (n + 1) = 0 := Nat.div_eq_of_lt h
  change op / 10 ^ (n + 1) % 10 = 0
  rw [hq]

theorem modeOf_of_lt {op n : Nat} (h : op < 10 ^ (n + 1)) : modeOf op n = some .indirect :=
  Mode.ofDigit_eq_some.2 (modeDigit_of_lt h)

/-- Settles O4: for a present digit, what stands below its place is less than one unit of that place and what stands
above it is a multiple of ten units; an absent digit is 0. -/
theorem modeDigitsAreDecimalPlaces : Obligations.ModeDigitsAreDecimalPlaces := by
  unfold Obligations.ModeDigitsAreDecimalPlaces
  constructor
  · intro num d1 d2 d3 hnum h1 h2 h3
    rw [modeDigit_one, modeDigit_two, modeDigit_three]
    refine ⟨?_, ?_, ?_⟩ <;> omega
  · intro op n _ _ h
    exact ⟨modeDigit_of_lt h, modeOf_of_lt h⟩

end Sys2Proof
end

section
/-! PROOFS. The resolver mode by mode (41_resolver.md R85, R87), and the one address a writing instruction stores at
(R91). -/

namespace Sys2Proof.Machine

/-! ### The resolver in the memory modes -/

/-- The address is checked before memory is read (41_resolver.md R90). Relative is this at raw + rb
(`resolveRead_relative`). -/
theorem resolveRead_indirect (pos : Fin 4) (raw rb : Int) (m : Memory) :
    resolveRead pos ⟨.indirect, raw⟩ rb m =
      if raw < 0 then .error ⟨.negativeAddress, pos, some raw⟩ else .ok (m.read raw.toNat) := by
  by_cases h : raw < 0
  · simp [resolveRead, effectiveAddress, checkAddress_negative h, h]
  · simp [resolveRead, effectiveAddress, checkAddress_nonneg (not_lt.1 h), h]

theorem resolveWriteAddress_indirect (pos : Fin 4) (raw rb : Int) :
    resolveWriteAddress pos ⟨.indirect, raw⟩ rb =
      if raw < 0 then .error ⟨.negativeAddress, pos, some raw⟩ else .ok raw.toNat := rfl

/-- Settles O8: Indirect checks its address before the read, Relative is Indirect at raw + rb, and Immediate answers the
raw operand without memory (41_resolver.md R86). -/
theorem resolveReadInEachMode : Obligations.ResolveReadInEachMode := by
  unfold Obligations.ResolveReadInEachMode
  intro pos raw rb m
  refine ⟨resolveRead_indirect pos raw rb m, rfl, ?_⟩
  rw [resolveRead_relative]
  exact resolveRead_indirect pos (raw + rb) rb m

/-- Settles O9: Indirect answers its checked address, Relative is Indirect at raw + rb, and Immediate has no address. -/
theorem resolveWriteAddressInEachMode : Obligations.ResolveWriteAddressInEachMode := by
  unfold Obligations.ResolveWriteAddressInEachMode
  intro pos raw rb
  refine ⟨resolveWriteAddress_indirect pos raw rb, ?_, resolveWriteAddress_immediate rfl pos rb⟩
  rw [resolveWriteAddress_relative]
  exact resolveWriteAddress_indirect pos (raw + rb) rb

/-! ### The address of a write -/

/-- A writable operand is Relative or Indirect, and the address of its mode is not negative. -/
theorem writable_cases {o : Operand} {s : State} (h : writable o s) :
    (o.mode = .relative ∧ 0 ≤ o.raw + s.rb ∧ operandAddress o s = o.raw + s.rb) ∨
      (o.mode = .indirect ∧ 0 ≤ o.raw ∧ operandAddress o s = o.raw) := by
  obtain ⟨m, raw⟩ := o
  cases m with
  | indirect => exact .inr ⟨rfl, h, rfl⟩
  | immediate => exact absurd h not_false
  | relative => exact .inl ⟨rfl, h, rfl⟩

/-- An instruction with a write operand stores one value at the operand's address or, if it is an Input, may suspend
instead (42_dispatch_step.md R98). -/
theorem effectOf_writeOperand {i : Instr} {o : Operand} {s : State} {e : Effect} (ho : i.writeOperand = some o)
    (he : effectOf i s = .ok e) :
    writable o s ∧
      (e = .await ∨ ∃ v, e = .store (operandAddress o s).toNat v ∨ e = .inputStore (operandAddress o s).toNat v) := by
  cases i with
  | add a b c | multiply a b c | lessThan a b c | equals a b c =>
    cases ho
    obtain ⟨-, -, hc, rfl⟩ := routeReadReadWrite_ok_iff.1 he
    exact ⟨hc, .inr ⟨_, .inl rfl⟩⟩
  | input a =>
    cases ho
    obtain ⟨ha, rfl⟩ := routeInput_ok_iff.1 he
    cases s.inQ.head? with
    | none => exact ⟨ha, .inl rfl⟩
    | some v => exact ⟨ha, .inr ⟨v, .inr rfl⟩⟩
  | output | jumpIfTrue | jumpIfFalse | adjustRelativeBase | halt => cases ho

/-- An instruction with a write operand that completes had a writable target, and wrote the one cell there. -/
theorem exec_writeOperand_mem {i : Instr} {o : Operand} {s t : State} (ho : i.writeOperand = some o)
    (h : exec i s = .next t) (ht : t.status = .running) :
    writable o s ∧ ∃ v, t.mem = s.mem.write (operandAddress o s).toNat v := by
  obtain ⟨r, -, rfl⟩ | ⟨e, he, rfl⟩ := exec_next_cases h
  · rw [enterFault_status] at ht
    cases ht
  · obtain ⟨hw, rfl | ⟨v, rfl | rfl⟩⟩ := effectOf_writeOperand ho he
    · rw [commit_await] at ht
      cases ht
    · exact ⟨hw, v, by rw [commit_store]⟩
    · exact ⟨hw, v, by rw [commit_inputStore]⟩

/-- Settles O11: all five writing classes store at the address of their write operand, and that address is the one its
mode gives. -/
theorem writeResolutionIsUniform : Obligations.WriteResolutionIsUniform := by
  unfold Obligations.WriteResolutionIsUniform
  intro i o s t ho h ht
  obtain ⟨hw, v, hv⟩ := exec_writeOperand_mem ho h ht
  obtain ⟨hm, h0, ha⟩ | ⟨hm, h0, ha⟩ := writable_cases hw
  · exact .inl ⟨hm, h0, v, ha ▸ hv⟩
  · exact .inr ⟨hm, h0, v, ha ▸ hv⟩

end Sys2Proof.Machine
end

section
/-! PROOFS. An Input whose target can be written, with and without a value available (42_dispatch_step.md R104,
44_io.md R116). -/

namespace Sys2Proof.Machine

section
variable {a : Operand} {s : State}

/-- With InQ empty the behaviour asks to wait, and the commit of that effect is STATUS alone. -/
theorem exec_input_nil (ha : writable a s) (hq : s.inQ = []) :
    exec (.input a) s = .next { s with status := .awaitingInput } := by
  have he : effectOf (.input a) s = .ok .await :=
    routeInput_ok_iff.2 ⟨ha, by rw [hq]; rfl⟩
  rw [exec_eq_conclude, he, conclude, commit_await]

/-- With a value available the head of InQ is stored and consumed, and IP passes the two cells of the instruction. -/
theorem exec_input_cons {v : Int} {q : List Int} (ha : writable a s) (hq : s.inQ = v :: q) :
    exec (.input a) s = .next { s with
      mem := s.mem.write (operandAddress a s).toNat v
      inQ := q
      ip := s.ip + 2
      status := .running } := by
  have he : effectOf (.input a) s = .ok (.inputStore (operandAddress a s).toNat v) :=
    routeInput_ok_iff.2 ⟨ha, by rw [hq]; rfl⟩
  have hip : s.ip + 1 + ((Instr.input a).cls.arity : Int) = s.ip + 2 := Int.add_assoc s.ip 1 1
  rw [exec_eq_conclude, he, conclude, commit_inputStore, hip, hq, List.tail_cons]

end

/-- Settles O20: the suspension changed STATUS only, so after the push the target is the same address and the pushed
value is all that InQ holds; storing it leaves InQ empty again. -/
theorem inputSuspendsOnEmptyQueue : Obligations.InputSuspendsOnEmptyQueue := by
  unfold Obligations.InputSuspendsOnEmptyQueue
  intro a s ha hq
  refine ⟨exec_input_nil ha hq, fun v => ?_⟩
  rw [pushInput_awaiting rfl, hq, List.nil_append]
  have stored := exec_input_cons (s := { s with inQ := [v], status := .running }) ha rfl
  rw [stored, ← hq]
  rfl

end Sys2Proof.Machine
end

section
/-! PROOFS. The cause ImmediateWrite (60_exceptions.md R128): what the decoder and the operand routing can report, and
that this cause comes from an Immediate write target alone. -/

namespace Sys2Proof

/-! ### The decoder's reports -/

/-- The decoder reports the range, the missing class, or the fault of one of the positions 1, 2, 3
(40_decoder.md R82). -/
theorem decodeCell_error {op : Int} {r : FaultReport} (h : decodeCell op = .error r) :
    r = ⟨.opcodeOutOfRange, 0, none⟩ ∨ r = ⟨.unknownOpcode, 0, none⟩ ∨
      ∃ c, InstrClass.ofNumber (op.toNat % 100) = some c ∧
        ∃ k : Fin 4, k ≠ 0 ∧ checkPosition c op.toNat k = .error r := by
  unfold decodeCell at h
  split at h
  · exact .inl (Except.error.inj h).symm
  · cases hc : InstrClass.ofNumber (op.toNat % 100) with
    | none =>
      rw [hc] at h
      exact .inr (.inl (Except.error.inj h).symm)
    | some c =>
      rw [hc] at h
      exact .inr (.inr ⟨c, rfl, decodeModes_error h⟩)

/-- The decoder's ImmediateWrite is at the write position of the cell's class, where the digit is 1. -/
theorem decodeCell_immediateWrite {op : Int} {r : FaultReport} (h : decodeCell op = .error r)
    (hcause : r.cause = .immediateWrite) : modeDigit op.toNat r.pos.val = 1 ∧
      ∃ c, InstrClass.ofNumber (op.toNat % 100) = some c ∧ c.wpos = some r.pos := by
  obtain rfl | rfl | ⟨c, hc, k, -, hk⟩ := decodeCell_error h
  · cases hcause
  · cases hcause
  · obtain ⟨-, rfl, -, himm⟩ := checkPosition_error hk
    obtain ⟨hdigit, hwpos⟩ := himm hcause
    exact ⟨hdigit, c, hc, hwpos⟩

/-! ### The classes with a write position -/

/-- The five writing classes (30_encoding.md R62, 40_decoder.md R77). -/
theorem InstrClass.wpos_isSome_iff (c : InstrClass) :
    c.wpos.isSome ↔ c ∈ [InstrClass.add, .multiply, .input, .lessThan, .equals] := by
  cases c <;> decide

/-- An instruction has a write operand exactly when its class has a write position. -/
theorem Instr.writeOperand_isSome (i : Instr) : i.writeOperand.isSome = i.cls.wpos.isSome := by
  cases i <;> rfl

end Sys2Proof

namespace Sys2Proof.Machine

/-! ### What a routing that faults resolved -/

section
variable {a b c : Operand} {s : State} {r : FaultReport}

/-- A read can only fault on its address (41_resolver.md R85). -/
theorem resolveRead_error_cause {pos : Fin 4} (h : resolveRead pos a s.rb s.mem = .error r) :
    r.cause = .negativeAddress := by
  by_cases ha : readable a s
  · rw [resolveRead_readable ha] at h
    cases h
  · rw [resolveRead_not_readable ha] at h
    cases h
    rfl

/-- A write target that raises ImmediateWrite is Immediate (41_resolver.md R87). -/
theorem resolveWriteAddress_immediateWrite {pos : Fin 4} (h : resolveWriteAddress pos a s.rb = .error r)
    (hcause : r.cause = .immediateWrite) : a.mode = .immediate := by
  by_contra hm
  by_cases ha : writable a s
  · rw [resolveWriteAddress_writable ha] at h
    cases h
  · rw [resolveWriteAddress_not_writable ha hm] at h
    cases h
    cases hcause

/-! A routing's fault is that of one of its operands (42_dispatch_step.md R97). -/

theorem routeRead_error {f : Int → Effect} (h : routeRead a s f = .error r) :
    resolveRead 1 a s.rb s.mem = .error r := by
  unfold routeRead at h
  split at h
  · rwa [← Except.error.inj h]
  · cases h

theorem routeInput_error {f : Nat → Option Int → Effect} (h : routeInput a s f = .error r) :
    resolveWriteAddress 1 a s.rb = .error r := by
  unfold routeInput at h
  split at h
  · rwa [← Except.error.inj h]
  · cases h

theorem routeReadRead_error {f : Int → Int → Effect} (h : routeReadRead a b s f = .error r) :
    resolveRead 1 a s.rb s.mem = .error r ∨ resolveRead 2 b s.rb s.mem = .error r := by
  unfold routeReadRead at h
  split at h
  · exact .inl (by rwa [← Except.error.inj h])
  · split at h
    · exact .inr (by rwa [← Except.error.inj h])
    · cases h

theorem routeReadReadWrite_error {f : Int → Int → Nat → Effect} (h : routeReadReadWrite a b c s f = .error r) :
    resolveRead 1 a s.rb s.mem = .error r ∨ resolveRead 2 b s.rb s.mem = .error r ∨
      resolveWriteAddress 3 c s.rb = .error r := by
  unfold routeReadReadWrite at h
  split at h
  · exact .inl (by rwa [← Except.error.inj h])
  · split at h
    · exact .inr (.inl (by rwa [← Except.error.inj h]))
    · split at h
      · exact .inr (.inr (by rwa [← Except.error.inj h]))
      · cases h

end

/-! ### What an instruction's fault comes from -/

/-- An instruction faults on an operand it reads or on its write operand, and on nothing else. -/
theorem effectOf_error {i : Instr} {s : State} {r : FaultReport} (h : effectOf i s = .error r) :
    (∃ pos o, resolveRead pos o s.rb s.mem = .error r) ∨
      ∃ pos o, i.writeOperand = some o ∧ resolveWriteAddress pos o s.rb = .error r := by
  cases i with
  | add a b c | multiply a b c | lessThan a b c | equals a b c =>
    obtain ha | hb | hc := routeReadReadWrite_error h
    · exact .inl ⟨1, a, ha⟩
    · exact .inl ⟨2, b, hb⟩
    · exact .inr ⟨3, c, rfl, hc⟩
  | input a => exact .inr ⟨1, a, rfl, routeInput_error h⟩
  | output a | adjustRelativeBase a => exact .inl ⟨1, a, routeRead_error h⟩
  | jumpIfTrue a b | jumpIfFalse a b =>
    obtain ha | hb := routeReadRead_error h
    · exact .inl ⟨1, a, ha⟩
    · exact .inl ⟨2, b, hb⟩
  | halt => cases h

/-- The record an instruction leaves where there was none is that of its operands' fault. -/
theorem exec_faultRec {i : Instr} {s t : State} {rec : FaultRecord} (hs : s.faultRec = none)
    (h : exec i s = .next t) (ht : t.faultRec = some rec) :
    ∃ r, effectOf i s = .error r ∧ rec = ⟨r.cause, s.ip, some (opcodeCell i), r.pos, r.addr⟩ := by
  obtain ⟨r, hr, rfl⟩ | ⟨e, -, rfl⟩ := exec_next_cases h
  · rw [enterFault_eq] at ht
    exact ⟨r, hr, (Option.some.inj ht).symm⟩
  · rw [commit_faultRec, hs] at ht
    cases ht

/-- An instruction whose operands raise ImmediateWrite has an Immediate write operand. -/
theorem effectOf_immediateWrite {i : Instr} {s : State} {r : FaultReport} (h : effectOf i s = .error r)
    (hcause : r.cause = .immediateWrite) : ∃ o, i.writeOperand = some o ∧ o.mode = .immediate := by
  obtain ⟨pos, o, ho⟩ | ⟨pos, o, hw, ho⟩ := effectOf_error h
  · rw [resolveRead_error_cause ho] at hcause
    cases hcause
  · exact ⟨o, hw, resolveWriteAddress_immediateWrite ho hcause⟩

/-- Settles O7: of the decoder's reports and of the operands' faults, ImmediateWrite is that of the write position alone,
and only the five writing classes have one. -/
theorem immediateWriteOnlyFromWriters : Obligations.ImmediateWriteOnlyFromWriters := by
  unfold Obligations.ImmediateWriteOnlyFromWriters
  constructor
  · intro op r h hcause
    obtain ⟨hdigit, c, hc, hwpos⟩ := decodeCell_immediateWrite h hcause
    exact ⟨hdigit, c, hc, hwpos, c.wpos_isSome_iff.1 (by rw [hwpos]; rfl)⟩
  · intro i s t rec hs h ht hcause
    obtain ⟨r, hr, rfl⟩ := exec_faultRec hs h ht
    obtain ⟨o, hw, hm⟩ := effectOf_immediateWrite hr hcause
    exact ⟨i.cls.wpos_isSome_iff.1 (by rw [← i.writeOperand_isSome, hw]; rfl), o, hw, hm⟩

end Sys2Proof.Machine
end

section
/-! PROOFS. The memory a reset with an image leaves (70_reset_and_hazards.md R144). -/

namespace Sys2Proof.Machine

/-- Settles O13: a reset's memory reads at every address as the image padded with 0, which is the image's own cell below
its length and 0 from there on. -/
theorem resetPlacesImage : Obligations.ResetPlacesImage := by
  unfold Obligations.ResetPlacesImage
  intro image inputs
  constructor
  · intro a ha
    rw [read_hostReset_mem]
    exact List.getD_eq_getElem image 0 ha
  · intro a ha
    rw [read_hostReset_mem]
    exact List.getD_eq_default image 0 ha

end Sys2Proof.Machine
end

section
/-! PROOFS. The decoder and the encoder are inverse (30_encoding.md sections 1 to 6): a cell decodes to a descriptor
exactly when the descriptor is legal and the cell is its encoding, and an instruction is its descriptor and its raw
operands. -/

namespace Sys2Proof

/-! ### The cell of a descriptor -/

/-- What the mode at position k of a class can be: within the arity anything but Immediate at the write position, above
it Indirect (30_encoding.md R57, R62; D4). -/
def modeLegal (c : InstrClass) (k : Fin 4) (m : Mode) : Prop :=
  (k.val ≤ c.arity → ¬ (c.wpos = some k ∧ m = .immediate)) ∧ (c.arity < k.val → m = .indirect)

/-- The descriptors some cell decodes to (`decodeCell_ok_iff_cell`). -/
def Descriptor.legal (d : Descriptor) : Prop :=
  modeLegal d.cls 1 d.mode1 ∧ modeLegal d.cls 2 d.mode2 ∧ modeLegal d.cls 3 d.mode3

/-- The opcode cell of a descriptor (30_encoding.md R68). -/
def Descriptor.cell (d : Descriptor) : Nat :=
  d.cls.number + 100 * d.mode1.digit + 1000 * d.mode2.digit + 10000 * d.mode3.digit

/-- A position passes exactly with a legal mode, the one its digit stands for. -/
theorem checkPosition_ok_iff {c : InstrClass} {op : Nat} {k : Fin 4} {m : Mode} :
    checkPosition c op k = .ok m ↔ modeDigit op k.val = m.digit ∧ modeLegal c k m := by
  unfold modeLegal
  rcases Nat.lt_or_ge c.arity k.val with hk | hk
  · rw [checkPosition_ok_above hk]
    constructor
    · rintro ⟨hd, rfl⟩
      exact ⟨hd, fun h => absurd h (not_le.2 hk), fun _ => rfl⟩
    · rintro ⟨hd, -, hm⟩
      obtain rfl := hm hk
      exact ⟨hd, rfl⟩
  · rw [checkPosition_ok_within hk]
    exact and_congr_right fun _ => ⟨fun h => ⟨fun _ => h, fun h' => absurd h' (not_lt.2 hk)⟩, fun h => h.1 hk⟩

/-- A number below 100000 is made of its class number and its three mode digits, in one way (00_scope.md R12). -/
theorem eq_cell_iff {op : Nat} {d : Descriptor} : op = d.cell ↔
    op ≤ 99999 ∧ op % 100 = d.cls.number ∧ modeDigit op 1 = d.mode1.digit ∧ modeDigit op 2 = d.mode2.digit ∧
      modeDigit op 3 = d.mode3.digit := by
  have hn := d.cls.number_lt
  have h1 := d.mode1.digit_lt
  have h2 := d.mode2.digit_lt
  have h3 := d.mode3.digit_lt
  rw [Descriptor.cell, modeDigit_one, modeDigit_two, modeDigit_three]
  omega

/-- A cell decodes to a descriptor exactly when the descriptor is legal and the cell is its encoding. -/
theorem decodeCell_ok_iff_cell {op : Int} {d : Descriptor} : decodeCell op = .ok d ↔ d.legal ∧ op = d.cell := by
  rw [decodeCell_ok, decodeModes_ok, checkPosition_ok_iff, checkPosition_ok_iff, checkPosition_ok_iff]
  have hcell := eq_cell_iff (op := op.toNat) (d := d)
  constructor
  · rintro ⟨h0, hmax, hn, -, ⟨h1, l1⟩, ⟨h2, l2⟩, h3, l3⟩
    have := hcell.2 ⟨by omega, hn, h1, h2, h3⟩
    exact ⟨⟨l1, l2, l3⟩, by omega⟩
  · rintro ⟨⟨l1, l2, l3⟩, rfl⟩
    obtain ⟨hmax, hn, h1, h2, h3⟩ := hcell.1 (Int.toNat_natCast _)
    exact ⟨by omega, by omega, hn, rfl, ⟨h1, l1⟩, ⟨h2, l2⟩, h3, l3⟩

/-! ### The descriptor of an instruction -/

/-- The mode of the operand at position n, Indirect for an absent one. -/
def Instr.modeAt (i : Instr) (n : Nat) : Mode := (i.operands[n - 1]?).elim .indirect Operand.mode

/-- The descriptor an instruction's opcode cell stands for. -/
def Instr.descriptor (i : Instr) : Descriptor := ⟨i.cls, i.modeAt 1, i.modeAt 2, i.modeAt 3⟩

theorem operandDigit_operands (i : Instr) (n : Nat) : operandDigit i.operands n = (i.modeAt n).digit := by
  unfold operandDigit Instr.modeAt
  cases i.operands[n - 1]? <;> rfl

/-- The opcode cell is the cell of the descriptor. -/
theorem opcodeCell_eq_cell (i : Instr) : opcodeCell i = i.descriptor.cell := by
  rw [opcodeCell, operandDigit_operands, operandDigit_operands, operandDigit_operands]
  rfl

theorem Operand.legalTarget_iff (o : Operand) : o.legalTarget = true ↔ o.mode ≠ .immediate := by
  obtain ⟨m, raw⟩ := o
  cases m <;> simp [Operand.legalTarget]

/-- The well-formed instructions are those with a legal descriptor: no operand but the write operand has a mode that a
legal descriptor excludes. -/
theorem wellFormed_iff_legal (i : Instr) : i.wellFormed = true ↔ i.descriptor.legal := by
  unfold Instr.wellFormed Descriptor.legal modeLegal
  cases i <;> simp [Instr.writeOperand, Operand.legalTarget_iff, Instr.descriptor, Instr.modeAt, Instr.operands,
    Instr.cls, InstrClass.arity, InstrClass.wpos]

/-! ### The instruction of a descriptor -/

section
variable (d : Descriptor) (raw : Nat → Int)

@[simp] theorem assemble_cls : (assemble d raw).cls = d.cls := by
  obtain ⟨c, m1, m2, m3⟩ := d
  cases c <;> rfl

/-- The raw operands are those at the positions 1 to the arity. -/
theorem assemble_operands_raw :
    (assemble d raw).operands.map (fun o => o.raw) = (List.range d.cls.arity).map fun k => raw (k + 1) := by
  obtain ⟨c, m1, m2, m3⟩ := d
  cases c <;> rfl

/-- The instruction keeps the whole descriptor when the modes above the arity, which it drops, are Indirect. -/
theorem assemble_descriptor (h : d.legal) : (assemble d raw).descriptor = d := by
  obtain ⟨c, m1, m2, m3⟩ := d
  obtain ⟨⟨-, h1⟩, ⟨-, h2⟩, ⟨-, h3⟩⟩ := h
  cases c <;> simp_all [assemble, Instr.descriptor, Instr.modeAt, Instr.operands, Instr.cls, InstrClass.arity]

end

/-- What a cell decodes to, with any raw operands, is well formed and has that very opcode cell. -/
theorem assemble_of_decodeCell {op : Int} {d : Descriptor} (h : decodeCell op = .ok d) (raw : Nat → Int) :
    (assemble d raw).wellFormed = true ∧ opcodeCell (assemble d raw) = op := by
  obtain ⟨hlegal, rfl⟩ := decodeCell_ok_iff_cell.1 h
  rw [wellFormed_iff_legal, opcodeCell_eq_cell, assemble_descriptor d raw hlegal]
  exact ⟨hlegal, rfl⟩

/-- The descriptor and the raw operands in front of any cells make up the instruction again. -/
theorem assemble_descriptor_operands (i : Instr) (rest : List Int) : assemble i.descriptor
    (fun k => (i.operands.map (fun o => o.raw) ++ rest).getD (k - 1) Config.neverWritten) = i := by
  cases i <;> rfl

/-! ### Lists of cells -/

/-- What decodes, spelled out: the head decodes, and the cells of its arity follow. -/
theorem decode_ok_iff {cells : List Int} {i : Instr} {rest : List Int} : decode cells = .ok (i, rest) ↔
    ∃ op tail d, cells = op :: tail ∧ decodeCell op = .ok d ∧ d.cls.arity ≤ tail.length ∧
      i = assemble d (fun k => tail.getD (k - 1) Config.neverWritten) ∧ rest = tail.drop d.cls.arity := by
  cases cells with
  | nil => simp [decode]
  | cons op tail =>
    cases hd : decodeCell op with
    | error r => simp [decode, hd]
    | ok d =>
      by_cases hlen : tail.length < d.cls.arity
      · simp [decode, hd, hlen]
      · simp [decode, hd, hlen, not_lt.1 hlen, eq_comm]

theorem map_range_getD (l : List Int) {n : Nat} (h : n ≤ l.length) (v : Int) :
    (List.range n).map (fun k => l.getD k v) = l.take n := by
  refine List.ext_getElem (by simp [h]) fun k hk _ => ?_
  simp only [List.length_map, List.length_range] at hk
  simp [List.getElem?_eq_getElem (show k < l.length by omega)]

/-- Settles O1: the opcode cell is the cell of the legal descriptor of i, so it decodes to that descriptor, and the
descriptor and the raw operands make up i. -/
theorem decodeEncodeRoundTrip : Obligations.DecodeEncodeRoundTrip := by
  unfold Obligations.DecodeEncodeRoundTrip
  intro i rest hwf
  have hlen : (i.operands.map (fun o => o.raw)).length = i.cls.arity := by rw [List.length_map, i.operands_length]
  refine decode_ok_iff.2 ⟨opcodeCell i, i.operands.map (fun o => o.raw) ++ rest, i.descriptor, rfl, ?_, ?_, ?_, ?_⟩
  · exact decodeCell_ok_iff_cell.2 ⟨(wellFormed_iff_legal i).1 hwf, opcodeCell_eq_cell i⟩
  · rw [List.length_append, hlen]
    exact Nat.le_add_right _ _
  · exact (assemble_descriptor_operands i rest).symm
  · exact (List.drop_left' hlen).symm

/-- Settles O2: the head cell is the opcode cell of what it decodes to, and the raw operands are the cells after it, as
many as the arity. -/
theorem decodedCellsAreTheEncoding : Obligations.DecodedCellsAreTheEncoding := by
  unfold Obligations.DecodedCellsAreTheEncoding
  intro cells i rest h
  obtain ⟨op, tail, d, rfl, hd, hlen, rfl, rfl⟩ := decode_ok_iff.1 h
  obtain ⟨hwf, hop⟩ := assemble_of_decodeCell hd fun k => tail.getD (k - 1) Config.neverWritten
  refine ⟨hwf, ?_, ?_⟩
  · rw [encode, hop, assemble_operands_raw]
    simp only [Nat.add_sub_cancel]
    rw [map_range_getD tail hlen, List.cons_append, List.take_append_drop]
  · rw [encode, List.length_cons, List.length_map, Instr.operands_length, Nat.add_comm]

/-- Settles O3: each list is the encoding of a well-formed instruction. -/
theorem opcodeMapWordsDecode : Obligations.OpcodeMapWordsDecode := by
  unfold Obligations.OpcodeMapWordsDecode
  have h := decodeEncodeRoundTrip
  exact ⟨h (.add ⟨.immediate, 5⟩ ⟨.indirect, 6⟩ ⟨.relative, 7⟩) [] rfl,
    h (.multiply ⟨.relative, 5⟩ ⟨.immediate, 6⟩ ⟨.indirect, 7⟩) [] rfl,
    h (.input ⟨.relative, -5⟩) [] rfl,
    h (.output ⟨.immediate, -7⟩) [] rfl,
    h (.jumpIfTrue ⟨.immediate, 1⟩ ⟨.relative, 2⟩) [] rfl,
    h (.jumpIfFalse ⟨.indirect, 9⟩ ⟨.immediate, 0⟩) [] rfl,
    h (.lessThan ⟨.immediate, 1⟩ ⟨.immediate, 2⟩ ⟨.relative, 0⟩) [] rfl,
    h (.equals ⟨.indirect, 1⟩ ⟨.indirect, 2⟩ ⟨.indirect, 3⟩) [] rfl,
    h (.adjustRelativeBase ⟨.relative, -2⟩) [] rfl,
    h .halt [] rfl⟩

end Sys2Proof
end

section
/-! PROOFS. The order of the decoder's checks (60_exceptions.md R132, items 2 to 4). -/

namespace Sys2Proof

/-! ### One position -/

/-- The digits up to 2 are the modes (30_encoding.md R57). -/
theorem exists_digit_eq {n : Nat} (h : n ≤ 2) : ∃ m : Mode, m.digit = n := by
  interval_cases n
  · exact ⟨.indirect, rfl⟩
  · exact ⟨.immediate, rfl⟩
  · exact ⟨.relative, rfl⟩

/-- The digits above 2 encode no mode (30_encoding.md R57). -/
theorem Mode.ofDigit_eq_none {n : Nat} (h : 2 < n) : Mode.ofDigit n = none := by
  cases hm : Mode.ofDigit n with
  | none => rfl
  | some m =>
    have := Mode.ofDigit_eq_some.1 hm
    have := m.digit_lt
    omega

/-- A legal position passes, with the mode of its digit. -/
theorem checkPosition_of_positionLegal {c : InstrClass} {op : Nat} {k : Fin 4} (h : Machine.positionLegal c op k) :
    ∃ m, checkPosition c op k = .ok m ∧ m.digit = modeDigit op k.val := by
  obtain ⟨within, above⟩ := h
  rcases Nat.lt_or_ge c.arity k.val with hk | hk
  · exact ⟨.indirect, (checkPosition_ok_above hk).2 ⟨above hk, rfl⟩, (above hk).symm⟩
  · obtain ⟨hle, hwpos⟩ := within hk
    obtain ⟨m, hm⟩ := exists_digit_eq hle
    refine ⟨m, (checkPosition_ok_within hk).2 ⟨hm.symm, ?_⟩, hm⟩
    rintro ⟨hw, rfl⟩
    exact hwpos hw hm.symm

/-- An illegal position faults: with ImmediateWrite for the digit 1 within the arity, which is illegal at the write
position only, and else with InvalidModeDigit. -/
theorem checkPosition_of_not_positionLegal {c : InstrClass} {op : Nat} {k : Fin 4} (h : ¬ Machine.positionLegal c op k) :
    checkPosition c op k =
      .error ⟨if k.val ≤ c.arity ∧ modeDigit op k.val = 1 then .immediateWrite else .invalidModeDigit, k, none⟩ := by
  rcases Nat.lt_or_ge c.arity k.val with hk | hk
  · have hd : modeDigit op k.val ≠ 0 := fun hd => h ⟨fun h' => absurd h' (not_le.2 hk), fun _ => hd⟩
    simp [checkPosition, not_le.2 hk, hd]
  · by_cases hd : modeDigit op k.val ≤ 2
    · have hone : c.wpos = some k ∧ modeDigit op k.val = 1 := by
        by_contra hn
        exact h ⟨fun _ => ⟨hd, fun hw h1 => hn ⟨hw, h1⟩⟩, fun h' => absurd h' (not_lt.2 hk)⟩
      obtain ⟨hw, h1⟩ := hone
      simp [checkPosition, modeOf, hk, h1, hw, Mode.ofDigit]
    · have h1 : modeDigit op k.val ≠ 1 := by omega
      simp [checkPosition, modeOf, hk, Mode.ofDigit_eq_none (not_le.1 hd), h1]

/-! ### The pass over the positions, and the checks before it -/

/-- The mode pass reports the first position that faults. -/
theorem decodeModes_first_error {c : InstrClass} {op : Nat} {k : Fin 4} {r : FaultReport} (hk : 0 < k)
    (before : ∀ j : Fin 4, 0 < j → j < k → ∃ m, checkPosition c op j = .ok m)
    (h : checkPosition c op k = .error r) : decodeModes c op = .error r := by
  unfold decodeModes
  match k with
  | 0 => exact absurd hk (lt_irrefl 0)
  | 1 => simp [h]
  | 2 =>
    obtain ⟨m1, h1⟩ := before 1 (by decide) (by decide)
    simp [h1, h]
  | 3 =>
    obtain ⟨m1, h1⟩ := before 1 (by decide) (by decide)
    obtain ⟨m2, h2⟩ := before 2 (by decide) (by decide)
    simp [h1, h2, h]

/-- Out of range is reported before all else. -/
theorem decodeCell_outOfRange {op : Int} (h : op < 0 ∨ 99999 < op) :
    decodeCell op = .error ⟨.opcodeOutOfRange, 0, none⟩ := if_pos h

/-- A cell in range with a class is left to the mode pass. -/
theorem decodeCell_eq_decodeModes {op : Nat} {c : InstrClass} (hmax : op ≤ 99999)
    (hc : InstrClass.ofNumber (op % 100) = some c) : decodeCell op = decodeModes c op := by
  have inRange : ¬ ((op : Int) < 0 ∨ Config.maxOpcode < (op : Int)) := by simp only [Config.maxOpcode]; omega
  rw [decodeCell, if_neg inRange, Int.toNat_natCast, hc]

/-- Settles O6: each check is made only when those before it passed, and a position passes exactly when it is legal. -/
theorem decoderReportsFirstFault : Obligations.DecoderReportsFirstFault := by
  unfold Obligations.DecoderReportsFirstFault
  refine ⟨fun op => decodeCell_outOfRange, ?_, ?_, ?_⟩
  · intro op hmax hc
    exact decodeCell_unknownOpcode (by omega) (by omega) (by rwa [Int.toNat_emod (by omega) (by decide)])
  · intro op c k hmax hc hk legal illegal
    rw [decodeCell_eq_decodeModes hmax hc]
    refine decodeModes_first_error hk (fun j hj hjk => ?_) (checkPosition_of_not_positionLegal illegal)
    obtain ⟨m, hm, -⟩ := checkPosition_of_positionLegal (legal j hj hjk)
    exact ⟨m, hm⟩
  · intro op c hmax hc legal
    obtain ⟨m1, h1, d1⟩ := checkPosition_of_positionLegal (legal 1 (by decide))
    obtain ⟨m2, h2, d2⟩ := checkPosition_of_positionLegal (legal 2 (by decide))
    obtain ⟨m3, h3, d3⟩ := checkPosition_of_positionLegal (legal 3 (by decide))
    refine ⟨⟨c, m1, m2, m3⟩, ?_, rfl, d1, d2, d3⟩
    rw [decodeCell_eq_decodeModes hmax hc]
    exact decodeModes_ok.2 ⟨rfl, h1, h2, h3⟩

end Sys2Proof
end

section
/-! PROOFS. Memory as the map it stands for (20_memory.md R39, log 1), and a write read back through the same operand
(41_resolver.md R93). -/

namespace Sys2Proof.Machine

/-! ### The canonical form is determined by its reads -/

theorem Memory.read_cons_self (b : Nat) (v : Int) (m : Memory) : Memory.read ((b, v) :: m) b = v := by
  rw [Memory.read_cons, if_pos rfl]

theorem Memory.read_cons_of_ne {b a : Nat} (h : b ≠ a) (v : Int) (m : Memory) :
    Memory.read ((b, v) :: m) a = m.read a := by
  rw [Memory.read_cons, if_neg h]

/-- No address below a canonical memory's first one is listed. -/
theorem Memory.head_le_of_read_ne_zero {b a : Nat} {v : Int} {m : Memory} (hm : Memory.wf ((b, v) :: m))
    (h : Memory.read ((b, v) :: m) a ≠ 0) : b ≤ a := by
  obtain ⟨-, hb, -⟩ := Memory.wf_cons.1 hm
  by_contra hab
  refine h (Memory.read_below fun c hc => ?_)
  rcases List.mem_cons.1 hc with rfl | hc
  · exact not_le.1 hab
  · exact lt_trans (not_le.1 hab) (hb c hc)

/-- Canonical memories that read the same are equal. By induction on the first: both list the same first cell, because
each one's first address is the least that does not read as 0, and the rests read the same because neither lists that
address again. -/
theorem Memory.eq_of_read_eq {m m' : Memory} (hm : m.wf) (hm' : m'.wf) (h : ∀ a, m.read a = m'.read a) : m = m' := by
  induction m generalizing m' with
  | nil =>
    cases m' with
    | nil => rfl
    | cons c' n' =>
      obtain ⟨b', v'⟩ := c'
      obtain ⟨hv', -, -⟩ := Memory.wf_cons.1 hm'
      exact absurd ((h b').trans (Memory.read_cons_self b' v' n')).symm hv'
  | cons c n ih =>
    obtain ⟨b, v⟩ := c
    obtain ⟨hv, hb, hn⟩ := Memory.wf_cons.1 hm
    cases m' with
    | nil => exact absurd ((Memory.read_cons_self b v n).symm.trans (h b)) hv
    | cons c' n' =>
      obtain ⟨b', v'⟩ := c'
      obtain ⟨hv', hb', hn'⟩ := Memory.wf_cons.1 hm'
      have le : b' ≤ b := Memory.head_le_of_read_ne_zero hm' (by rwa [← h b, Memory.read_cons_self])
      have ge : b ≤ b' := Memory.head_le_of_read_ne_zero hm (by rwa [h b', Memory.read_cons_self])
      obtain rfl := le_antisymm le ge
      have same : v = v' := by rw [← Memory.read_cons_self b' v n, h b', Memory.read_cons_self]
      have rests : ∀ a, Memory.read n a = Memory.read n' a := by
        intro a
        by_cases ha : b' = a
        · subst ha
          rw [Memory.read_below hb, Memory.read_below hb']
        · rw [← Memory.read_cons_of_ne ha v n, h a, Memory.read_cons_of_ne ha]
      rw [same, ih hn hn' rests]

/-- Settles O14: a canonical memory lists exactly the addresses that do not read as 0, in rising order. -/
theorem canonicalMemoryIsItsReads : Obligations.CanonicalMemoryIsItsReads := by
  unfold Obligations.CanonicalMemoryIsItsReads
  exact fun _ _ => Memory.eq_of_read_eq

/-! ### Read/write agreement -/

section
variable {o : Operand} {s : State}

theorem readable_of_writable (h : writable o s) : readable o s := by
  obtain ⟨m, raw⟩ := o
  cases m with
  | indirect | relative => exact h
  | immediate => exact absurd h not_false

/-- What can be read and not written is Immediate (30_encoding.md R59). -/
theorem writable_of_readable (h : readable o s) (hm : o.mode ≠ .immediate) : writable o s := by
  obtain ⟨m, raw⟩ := o
  cases m with
  | indirect | relative => exact h
  | immediate => exact absurd rfl hm

/-- A memory-mode operand denotes the cell at its address (30_encoding.md R59). -/
theorem operandValue_of_writable (h : writable o s) : operandValue o s = s.mem.read (operandAddress o s).toNat := by
  obtain ⟨m, raw⟩ := o
  cases m with
  | indirect | relative => rfl
  | immediate => exact absurd h not_false

/-- After a write at the address an operand resolves to, the operand is readable, at that same address. -/
theorem resolveRead_write {p : Fin 4} {a : Nat} (hm : s.mem.wf) (ha : resolveWriteAddress p o s.rb = .ok a) (q : Fin 4)
    (v : Int) : resolveRead q o s.rb (s.mem.write a v) = .ok v := by
  obtain ⟨hw, rfl⟩ := resolveWriteAddress_ok_iff.1 ha
  have hw' : writable o (s.withMem (s.mem.write (operandAddress o s).toNat v)) := hw
  have hv : operandValue o (s.withMem (s.mem.write (operandAddress o s).toNat v)) = v :=
    (operandValue_of_writable hw').trans (Memory.read_write_same hm _ v)
  exact (resolveRead_readable (readable_of_writable hw') q).trans (congrArg Except.ok hv)

end

/-- Settles O10: a base and a memory are those of some state, and the resolver sees nothing else of it. -/
theorem writeThenReadAgrees : Obligations.WriteThenReadAgrees := by
  unfold Obligations.WriteThenReadAgrees
  intro p q o rb v m a hm ha
  exact resolveRead_write (s := (State.reset.withRb rb).withMem m) hm ha q v

end Sys2Proof.Machine
end

section
/-! PROOFS. What each instruction does when its operands resolve, and which fault it enters when one does not
(42_dispatch_step.md R96, R97, R103). -/

namespace Sys2Proof.Machine

/-! ### From the effect to the next state -/

section
variable {i : Instr} {s : State}

theorem exec_of_effect {e : Effect} (h : effectOf i s = .ok e) : exec i s = .next (commit e i.cls.arity s) := by
  rw [exec_eq_conclude, h, conclude]

/-- The fault of the operands is entered with the instruction's opcode cell in the record (60_exceptions.md R133). -/
theorem exec_of_error {r : FaultReport} (h : effectOf i s = .error r) : exec i s = .next { s with
    status := .faulted
    faultRec := some ⟨r.cause, s.ip, some (opcodeCell i), r.pos, r.addr⟩ } := by
  rw [exec_eq_conclude, h, conclude, raiseFault, enterFault_eq]

/-- A store of an instruction with three operands writes its one cell and passes four. -/
theorem exec_of_store {a : Nat} {v : Int} (h : effectOf i s = .ok (.store a v)) (arity : i.cls.arity = 3) :
    exec i s = .next { s with mem := s.mem.write a v, ip := s.ip + 4, status := .running } := by
  rw [exec_of_effect h, commit_store, arity, Int.add_assoc]
  rfl

end

/-! ### The storing instructions -/

theorem truthCell_decide (p : Prop) [Decidable p] : truthCell (decide p) = if p then 1 else 0 := by
  simp [truthCell]

section
variable {a b c : Operand} {s : State} (ha : readable a s) (hb : readable b s) (hc : writable c s)
include ha hb hc

theorem exec_add : exec (.add a b c) s = .next { s with
    mem := s.mem.write (operandAddress c s).toNat (operandValue a s + operandValue b s)
    ip := s.ip + 4
    status := .running } :=
  exec_of_store (routeReadReadWrite_ok ha hb hc behaveAdd) rfl

theorem exec_multiply : exec (.multiply a b c) s = .next { s with
    mem := s.mem.write (operandAddress c s).toNat (operandValue a s * operandValue b s)
    ip := s.ip + 4
    status := .running } :=
  exec_of_store (routeReadReadWrite_ok ha hb hc behaveMultiply) rfl

theorem exec_lessThan : exec (.lessThan a b c) s = .next { s with
    mem := s.mem.write (operandAddress c s).toNat (if operandValue a s < operandValue b s then 1 else 0)
    ip := s.ip + 4
    status := .running } := by
  rw [← truthCell_decide]
  exact exec_of_store (routeReadReadWrite_ok ha hb hc behaveLessThan) rfl

theorem exec_equals : exec (.equals a b c) s = .next { s with
    mem := s.mem.write (operandAddress c s).toNat (if operandValue a s = operandValue b s then 1 else 0)
    ip := s.ip + 4
    status := .running } := by
  rw [← truthCell_decide]
  exact exec_of_store (routeReadReadWrite_ok ha hb hc behaveEquals) rfl

end

/-- Settles O15: the operands route to a store of their sum. -/
theorem addStoresExactSum : Obligations.AddStoresExactSum := by
  unfold Obligations.AddStoresExactSum
  exact fun _ _ _ _ => exec_add

/-- Settles O16: the operands route to a store of their product. -/
theorem multiplyStoresExactProduct : Obligations.MultiplyStoresExactProduct := by
  unfold Obligations.MultiplyStoresExactProduct
  exact fun _ _ _ _ => exec_multiply

/-- Settles O17: the operands route to a store of the truth cell of op1 < op2. -/
theorem lessThanStoresOneOrZero : Obligations.LessThanStoresOneOrZero := by
  unfold Obligations.LessThanStoresOneOrZero
  exact fun _ _ _ _ => exec_lessThan

/-- Settles O18: the operands route to a store of the truth cell of op1 = op2. -/
theorem equalsStoresOneOrZero : Obligations.EqualsStoresOneOrZero := by
  unfold Obligations.EqualsStoresOneOrZero
  exact fun _ _ _ _ => exec_equals

/-- Settles O26: sum and product do not depend on the order of the values, and nothing else of the operands counts. -/
theorem addAndMultiplyCommute : Obligations.AddAndMultiplyCommute := by
  unfold Obligations.AddAndMultiplyCommute
  intro a b c s ha hb hc
  rw [exec_add ha hb hc, exec_add hb ha hc, exec_multiply ha hb hc, exec_multiply hb ha hc,
    Int.add_comm (operandValue a s), Int.mul_comm (operandValue a s)]
  exact ⟨rfl, rfl⟩

/-! ### The other instructions -/

/-- Settles O19: `exec_input_cons`, with a writable target and a value in the queue. -/
theorem inputStoresQueueHead : Obligations.InputStoresQueueHead := by
  unfold Obligations.InputStoresQueueHead
  exact fun _ _ _ _ => exec_input_cons

/-- Settles O21: the operand routes to the emission of its value. -/
theorem outputAppendsValue : Obligations.OutputAppendsValue := by
  unfold Obligations.OutputAppendsValue
  intro a s ha
  have he : effectOf (.output a) s = .ok (.emit (operandValue a s)) := routeRead_ok ha behaveOutput
  rw [exec_of_effect he, commit_emit, Int.add_assoc]
  rfl

/-- Settles O24: the operand, read with the old base, routes to an adjustment by its value. -/
theorem adjustAddsToRelativeBase : Obligations.AdjustAddsToRelativeBase := by
  unfold Obligations.AdjustAddsToRelativeBase
  intro a s ha
  have he : effectOf (.adjustRelativeBase a) s = .ok (.adjust (operandValue a s)) :=
    routeRead_ok ha behaveAdjustRelativeBase
  rw [exec_of_effect he, commit_adjust, Int.add_assoc]
  rfl

/-- Settles O25: Halt has no operand to resolve, and its commit passes one cell. -/
theorem haltTerminatesInstance : Obligations.HaltTerminatesInstance := by
  unfold Obligations.HaltTerminatesInstance
  intro s
  have he : effectOf .halt s = .ok .halt := rfl
  rw [exec_of_effect he, commit_halt, Int.add_assoc]
  rfl

/-! A jump goes to its target, or past its three cells. -/

section
variable {i : Instr} {s : State}

theorem exec_of_jump {v : Int} (h : effectOf i s = .ok (.jump v)) :
    exec i s = .next { s with ip := v, status := .running } := by
  rw [exec_of_effect h, commit_jump]

theorem exec_of_next (h : effectOf i s = .ok .next) (arity : i.cls.arity = 2) :
    exec i s = .next { s with ip := s.ip + 3, status := .running } := by
  rw [exec_of_effect h, commit_next, arity, Int.add_assoc]
  rfl

end

/-- Settles O22: by cases on the condition, which selects the jump or the fall through. -/
theorem jumpIfTrueSetsPointer : Obligations.JumpIfTrueSetsPointer := by
  unfold Obligations.JumpIfTrueSetsPointer
  intro a b s ha hb
  have he : effectOf (.jumpIfTrue a b) s = .ok (behaveJumpIfTrue (operandValue a s) (operandValue b s)) :=
    routeReadRead_ok ha hb behaveJumpIfTrue
  by_cases hv : operandValue a s = 0
  · rw [if_neg (not_not.2 hv)]
    exact exec_of_next (by simpa [behaveJumpIfTrue, conditionTrue, hv] using he) rfl
  · rw [if_pos hv]
    exact exec_of_jump (by simpa [behaveJumpIfTrue, conditionTrue, hv] using he)

/-- Settles O23: by cases on the condition, which selects the fall through or the jump. -/
theorem jumpIfFalseSetsPointer : Obligations.JumpIfFalseSetsPointer := by
  unfold Obligations.JumpIfFalseSetsPointer
  intro a b s ha hb
  have he : effectOf (.jumpIfFalse a b) s = .ok (behaveJumpIfFalse (operandValue a s) (operandValue b s)) :=
    routeReadRead_ok ha hb behaveJumpIfFalse
  by_cases hv : operandValue a s = 0
  · rw [if_pos hv]
    exact exec_of_jump (by simpa [behaveJumpIfFalse, conditionTrue, hv] using he)
  · rw [if_neg hv]
    exact exec_of_next (by simpa [behaveJumpIfFalse, conditionTrue, hv] using he) rfl

/-! ### Operands that do not resolve -/

section
variable {a b c : Operand} {s : State}

theorem routeReadRead_fault_first (ha : ¬ readable a s) (f : Int → Int → Effect) :
    routeReadRead a b s f = .error ⟨.negativeAddress, 1, some (operandAddress a s)⟩ := by
  simp [routeReadRead, resolveRead_not_readable ha]

theorem routeReadRead_fault_second (ha : readable a s) (hb : ¬ readable b s) (f : Int → Int → Effect) :
    routeReadRead a b s f = .error ⟨.negativeAddress, 2, some (operandAddress b s)⟩ := by
  simp [routeReadRead, resolveRead_readable ha, resolveRead_not_readable hb]

theorem routeReadReadWrite_fault_first (ha : ¬ readable a s) (f : Int → Int → Nat → Effect) :
    routeReadReadWrite a b c s f = .error ⟨.negativeAddress, 1, some (operandAddress a s)⟩ := by
  simp [routeReadReadWrite, resolveRead_not_readable ha]

theorem routeReadReadWrite_fault_second (ha : readable a s) (hb : ¬ readable b s) (f : Int → Int → Nat → Effect) :
    routeReadReadWrite a b c s f = .error ⟨.negativeAddress, 2, some (operandAddress b s)⟩ := by
  simp [routeReadReadWrite, resolveRead_readable ha, resolveRead_not_readable hb]

/-- With readable operands 1 and 2 the fault is that of the target. -/
theorem routeReadReadWrite_fault_target (ha : readable a s) (hb : readable b s) {r : FaultReport}
    (hc : resolveWriteAddress 3 c s.rb = .error r) (f : Int → Int → Nat → Effect) :
    routeReadReadWrite a b c s f = .error r := by
  simp [routeReadReadWrite, resolveRead_readable ha, resolveRead_readable hb, hc]

theorem routeInput_fault_immediate (hm : a.mode = .immediate) (f : Nat → Option Int → Effect) :
    routeInput a s f = .error ⟨.immediateWrite, 1, none⟩ := by
  simp [routeInput, resolveWriteAddress_immediate hm]

end

/-- The four storing instructions differ only in the value they store. -/
theorem effectOf_storing {mk : Operand → Operand → Operand → Instr}
    (h : mk ∈ [Instr.add, Instr.multiply, Instr.lessThan, Instr.equals]) :
    ∃ f : Int → Int → Int, ∀ a b c s,
      effectOf (mk a b c) s = routeReadReadWrite a b c s fun v1 v2 wa => .store wa (f v1 v2) := by
  simp only [List.mem_cons, List.not_mem_nil, or_false] at h
  obtain rfl | rfl | rfl | rfl := h
  · exact ⟨fun v1 v2 => v1 + v2, fun _ _ _ _ => rfl⟩
  · exact ⟨fun v1 v2 => v1 * v2, fun _ _ _ _ => rfl⟩
  · exact ⟨fun v1 v2 => truthCell (v1 < v2), fun _ _ _ _ => rfl⟩
  · exact ⟨fun v1 v2 => truthCell (v1 = v2), fun _ _ _ _ => rfl⟩

/-- The two jumps differ only in the effect they give for the two values. -/
theorem effectOf_jumping {mk : Operand → Operand → Instr} (h : mk ∈ [Instr.jumpIfTrue, Instr.jumpIfFalse]) :
    ∃ f, ∀ a b s, effectOf (mk a b) s = routeReadRead a b s f := by
  simp only [List.mem_cons, List.not_mem_nil, or_false] at h
  obtain rfl | rfl := h
  · exact ⟨behaveJumpIfTrue, fun _ _ _ => rfl⟩
  · exact ⟨behaveJumpIfFalse, fun _ _ _ => rfl⟩

/-- Settles O27: the routing, the same for the four, resolves the operands one after the other and answers the first
fault. -/
theorem storingOperandsFaultInOrder : Obligations.StoringOperandsFaultInOrder := by
  unfold Obligations.StoringOperandsFaultInOrder
  intro mk hmk a b c s
  obtain ⟨f, hf⟩ := effectOf_storing hmk
  refine ⟨fun ha => ?_, fun ha hb => ?_, fun ha hb hc hm => ?_, fun ha hb hm => ?_⟩
  · exact exec_of_error ((hf a b c s).trans (routeReadReadWrite_fault_first ha _))
  · exact exec_of_error ((hf a b c s).trans (routeReadReadWrite_fault_second ha hb _))
  · exact exec_of_error ((hf a b c s).trans
      (routeReadReadWrite_fault_target ha hb (resolveWriteAddress_not_writable hc hm 3) _))
  · exact exec_of_error ((hf a b c s).trans
      (routeReadReadWrite_fault_target ha hb (resolveWriteAddress_immediate hm 3 s.rb) _))

/-- Settles O28: the routing, the same for both jumps, resolves both operands before the condition is looked at. -/
theorem jumpOperandsFaultEvenUntaken : Obligations.JumpOperandsFaultEvenUntaken := by
  unfold Obligations.JumpOperandsFaultEvenUntaken
  intro mk hmk a b s
  obtain ⟨f, hf⟩ := effectOf_jumping hmk
  constructor
  · intro ha
    exact exec_of_error ((hf a b s).trans (routeReadRead_fault_first ha f))
  · intro ha hb
    exact exec_of_error ((hf a b s).trans (routeReadRead_fault_second ha hb f))

/-- Settles O29: the one operand does not route, and the fault commits nothing. -/
theorem singleReadFaultsOnNegativeAddress : Obligations.SingleReadFaultsOnNegativeAddress := by
  unfold Obligations.SingleReadFaultsOnNegativeAddress
  intro mk hmk a s ha
  simp only [List.mem_cons, List.not_mem_nil, or_false] at hmk
  obtain rfl | rfl := hmk
  · exact exec_of_error (i := .output a) (routeRead_fault ha behaveOutput)
  · exact exec_of_error (i := .adjustRelativeBase a) (routeRead_fault ha behaveAdjustRelativeBase)

/-- Settles O30: the target is resolved before the queue is looked at. -/
theorem inputTargetFaultBeatsEmptyQueue : Obligations.InputTargetFaultBeatsEmptyQueue := by
  unfold Obligations.InputTargetFaultBeatsEmptyQueue
  intro a s
  constructor
  · intro ha hm
    exact exec_of_error (i := .input a) (routeInput_fault ha hm behaveInput)
  · intro hm
    exact exec_of_error (i := .input a) (routeInput_fault_immediate hm behaveInput)

end Sys2Proof.Machine
end

section
/-! PROOFS. What an instruction can do to the state, said once (42_dispatch_step.md R98 to R103): the effects each
instruction can give, and from them the frames of the instructions. -/

namespace Sys2Proof.Machine

/-! ### The effects of an instruction -/

/-- The effects the instruction i can give at s, with what the routing has then resolved (42_dispatch_step.md R98, R99):
all that `effectOf` can answer (`effectOf_gives`). -/
inductive Gives (s : State) : Instr → Effect → Prop
  | store {i : Instr} {o : Operand} (v : Int) (write : i.writeOperand = some o) (target : writable o s) :
      Gives s i (.store (operandAddress o s).toNat v)
  | await {o : Operand} (target : writable o s) (empty : s.inQ = []) : Gives s (.input o) .await
  | inputStore {o : Operand} {v : Int} {q : List Int} (target : writable o s) (queue : s.inQ = v :: q) :
      Gives s (.input o) (.inputStore (operandAddress o s).toNat v)
  | emit (o : Operand) : Gives s (.output o) (.emit (operandValue o s))
  | adjust (o : Operand) : Gives s (.adjustRelativeBase o) (.adjust (operandValue o s))
  | jump {i : Instr} {b : Operand} (jumps : i.cls.isJump = true) (target : i.operands[1]? = some b) :
      Gives s i (.jump (operandValue b s))
  | next {i : Instr} (jumps : i.cls.isJump = true) : Gives s i .next
  | halt : Gives s .halt .halt

section
variable {i : Instr} {s t : State} {e : Effect}

theorem effectOf_gives (h : effectOf i s = .ok e) : Gives s i e := by
  cases i with
  | add a b c | multiply a b c | lessThan a b c | equals a b c =>
    obtain ⟨-, -, hc, rfl⟩ := routeReadReadWrite_ok_iff.1 h
    exact .store _ rfl hc
  | input a =>
    obtain ⟨ha, rfl⟩ := routeInput_ok_iff.1 h
    cases hq : s.inQ with
    | nil => exact .await ha hq
    | cons v q => exact .inputStore ha hq
  | output a =>
    obtain ⟨-, rfl⟩ := routeRead_ok_iff.1 h
    exact .emit a
  | jumpIfTrue a b =>
    obtain ⟨-, -, rfl⟩ := routeReadRead_ok_iff.1 h
    unfold behaveJumpIfTrue
    split
    · exact .jump rfl rfl
    · exact .next rfl
  | jumpIfFalse a b =>
    obtain ⟨-, -, rfl⟩ := routeReadRead_ok_iff.1 h
    unfold behaveJumpIfFalse
    split
    · exact .next rfl
    · exact .jump rfl rfl
  | adjustRelativeBase a =>
    obtain ⟨-, rfl⟩ := routeRead_ok_iff.1 h
    exact .adjust a
  | halt =>
    obtain rfl := Except.ok.inj h
    exact .halt

/-- What `exec` answers: a fault of the operands entered, or one of the instruction's effects committed. -/
theorem exec_next_gives (h : exec i s = .next t) :
    (∃ r, effectOf i s = .error r ∧ t = enterFault (some (opcodeCell i)) r s) ∨
      ∃ e, Gives s i e ∧ t = commit e i.cls.arity s :=
  (exec_next_cases h).imp_right fun ⟨e, he, ht⟩ => ⟨e, effectOf_gives he, ht⟩

end

/-! ### Jumps have two operands and write none -/

theorem InstrClass.arity_of_isJump {c : InstrClass} (h : c.isJump = true) : c.arity = 2 := by
  cases c with
  | jumpIfTrue | jumpIfFalse => rfl
  | add | multiply | input | output | lessThan | equals | adjustRelativeBase | halt => cases h

theorem InstrClass.ne_halt_of_isJump {c : InstrClass} (h : c.isJump = true) : c ≠ .halt := by
  rintro rfl
  cases h

theorem writeOperand_of_isJump {i : Instr} (h : i.cls.isJump = true) : i.writeOperand = none := by
  cases i with
  | jumpIfTrue | jumpIfFalse => rfl
  | add | multiply | input | output | lessThan | equals | adjustRelativeBase | halt => cases h

/-! ### Frames -/

/-- Settles O31: the four either enter a fault, which touches STATUS and FAULTREC only, or commit a store at the address
of operand 3. -/
theorem storingInstructionsFrame : Obligations.StoringInstructionsFrame := by
  unfold Obligations.StoringInstructionsFrame
  intro mk hmk a b c s t hwf h
  obtain ⟨f, hf⟩ := effectOf_storing hmk
  obtain ⟨r, -, rfl⟩ | ⟨e, he, rfl⟩ := exec_next_cases h
  · simp [enterFault_eq]
  · obtain ⟨-, -, hc, rfl⟩ := routeReadReadWrite_ok_iff.1 ((hf a b c s).symm.trans he)
    exact ⟨rfl, rfl, rfl, .inl rfl,
      fun _ => ⟨rfl, _, resolveWriteAddress_writable hc 3, fun _ hx => Memory.read_write_other hwf hx _⟩,
      fun hf => absurd hf (commit_not_faulted _ s _)⟩

/-- Settles O32: an Input enters a fault, suspends, or commits the store of the head of InQ at its target. -/
theorem inputFrame : Obligations.InputFrame := by
  unfold Obligations.InputFrame
  intro a s t hwf h
  obtain ⟨r, -, rfl⟩ | ⟨e, he, rfl⟩ := exec_next_cases h
  · simp [enterFault_eq]
  · obtain ⟨ha, rfl⟩ := routeInput_ok_iff.1 he
    cases s.inQ.head? with
    | none => simp [behaveInput, commit_await]
    | some v =>
      exact ⟨rfl, rfl, Status.noConfusion, fun _ => rfl,
        fun _ => ⟨rfl, _, resolveWriteAddress_writable ha 1, fun _ hx => Memory.read_write_other hwf hx v⟩,
        fun hr => absurd rfl hr⟩

/-- Settles O33: without a write operand an instruction enters a fault or commits one of the effects emit, adjust, jump,
next and halt, none of which touches memory, InQ or FAULTREC. -/
theorem nonStoringInstructionsFrame : Obligations.NonStoringInstructionsFrame := by
  unfold Obligations.NonStoringInstructionsFrame
  intro i s t hi h
  obtain ⟨r, -, rfl⟩ | ⟨e, he, rfl⟩ := exec_next_gives h
  · simp [enterFault_eq]
  · cases he with
    | store v hw => cases hi.symm.trans hw
    | await | inputStore => cases hi
    | emit o => simp [commit_emit, Instr.cls]
    | adjust o => simp [commit_adjust, Instr.cls]
    | jump hj => simp [commit_jump, InstrClass.ne_halt_of_isJump hj]
    | next hj => simp [commit_next, InstrClass.ne_halt_of_isJump hj]
    | halt => simp [commit_halt, Instr.cls]

end Sys2Proof.Machine
end

section
/-! PROOFS. The step (42_dispatch_step.md section 3): which instruction it runs, what it can do, said once, and what
follows for IP, memory and the channels. -/

namespace Sys2Proof.Machine

/-! ### Fetch and run -/

section
variable {s t : State} {i : Instr}

/-- A Running step runs the instruction at IP. -/
theorem step_of_instrAtIp (hs : s.status = .running) (hi : instrAtIp i s) : step s = exec i s := by
  rw [step_running hs, stepRunning, fetchInstr_ok_iff.2 hi]

/-- The cell at IP is the opcode cell of the instruction there (30_encoding.md R68; log 6). -/
theorem opcodeCell_of_instrAtIp (hi : instrAtIp i s) : opcodeCell i = s.mem.read s.ip.toNat := by
  obtain ⟨-, d, hd, rfl⟩ := fetchInstr_ok (fetchInstr_ok_iff.2 hi)
  exact (assemble_of_decodeCell hd _).2

theorem step_negative_ip (hs : s.status = .running) (hip : s.ip < 0) :
    step s = .next (enterFault none ⟨.negativeAddress, 0, some s.ip⟩ s) := by
  rw [step_running hs, stepRunning, fetchInstr, if_pos hip]
  rfl

end

/-- Settles O34: what the cells at IP decode to is the instruction that the fetch answers. -/
theorem stepRunsDecodedInstruction : Obligations.StepRunsDecodedInstruction := by
  unfold Obligations.StepRunsDecodedInstruction
  exact fun _ _ rest hs hip hd => step_of_instrAtIp hs ⟨hip, rest, hd⟩

/-- The decoder never reports an address (40_decoder.md R69). -/
theorem decodeCell_error_addr {op : Int} {r : FaultReport} (h : decodeCell op = .error r) : r.addr = none := by
  obtain rfl | rfl | ⟨c, -, k, -, hk⟩ := decodeCell_error h
  · rfl
  · rfl
  · exact (checkPosition_error hk).1

/-- Settles O35: the step enters the decoder's fault, and the decoder reports no address. -/
theorem undecodableCellFaults : Obligations.UndecodableCellFaults := by
  unfold Obligations.UndecodableCellFaults
  intro s r hs hip hd
  rw [step_decodeCell_error hs hip hd, enterFault_eq, decodeCell_error_addr hd]

/-- Settles O36: the fetch checks IP before it reads the cell. -/
theorem negativePointerFaultsAtFetch : Obligations.NegativePointerFaultsAtFetch := by
  unfold Obligations.NegativePointerFaultsAtFetch
  intro s hs hip
  rw [step_negative_ip hs hip, enterFault_eq]

/-- Every meaning answers a next state: it concludes with a fault entered or an effect committed. -/
theorem exec_answers_next (i : Instr) (s : State) : ∃ t, exec i s = .next t := by
  cases he : effectOf i s with
  | error r => exact ⟨_, exec_of_error he⟩
  | ok e => exact ⟨_, exec_of_effect he⟩

/-- Settles O47: a step that is not enabled answers its own state, and an enabled one enters the fault of the fetch or
runs an instruction. -/
theorem everyStepAnswersNext : Obligations.EveryStepAnswersNext := by
  unfold Obligations.EveryStepAnswersNext
  intro s
  by_cases hs : s.status = .running
  · rw [step_running hs, stepRunning]
    cases fetchInstr s with
    | error f => exact ⟨_, rfl⟩
    | ok i => exact exec_answers_next i s
  · exact ⟨s, step_not_running hs⟩

/-! ### The records of faults -/

/-- What an operand can report: a position from 1 on, and a negative address exactly with NegativeAddress
(41_resolver.md R89, R90). -/
structure OperandReport (r : FaultReport) : Prop where
  pos : r.pos ≠ 0
  cause : r.cause = .negativeAddress ∧ (∃ a < 0, r.addr = some a) ∨ r.cause = .immediateWrite ∧ r.addr = none

section
variable {o : Operand} {s : State} {pos : Fin 4} {r : FaultReport}

theorem operandAddress_negative (h : ¬ readable o s) : operandAddress o s < 0 := by
  obtain ⟨m, raw⟩ := o
  cases m with
  | indirect | relative => exact not_le.1 h
  | immediate => exact absurd trivial h

theorem resolveRead_report (hpos : pos ≠ 0) (h : resolveRead pos o s.rb s.mem = .error r) : OperandReport r := by
  by_cases ho : readable o s
  · rw [resolveRead_readable ho] at h
    cases h
  · rw [resolveRead_not_readable ho] at h
    cases h
    exact ⟨hpos, .inl ⟨rfl, _, operandAddress_negative ho, rfl⟩⟩

theorem resolveWriteAddress_report (hpos : pos ≠ 0) (h : resolveWriteAddress pos o s.rb = .error r) :
    OperandReport r := by
  by_cases hm : o.mode = .immediate
  · rw [resolveWriteAddress_immediate hm] at h
    cases h
    exact ⟨hpos, .inr ⟨rfl, rfl⟩⟩
  · by_cases ho : writable o s
    · rw [resolveWriteAddress_writable ho] at h
      cases h
    · rw [resolveWriteAddress_not_writable ho hm] at h
      cases h
      have hread : ¬ readable o s := fun h => ho (writable_of_readable h hm)
      exact ⟨hpos, .inl ⟨rfl, _, operandAddress_negative hread, rfl⟩⟩

end

/-- An instruction's fault is the report of one of its operands. -/
theorem effectOf_report {i : Instr} {s : State} {r : FaultReport} (h : effectOf i s = .error r) : OperandReport r := by
  cases i with
  | add a b c | multiply a b c | lessThan a b c | equals a b c =>
    obtain ha | hb | hc := routeReadReadWrite_error h
    · exact resolveRead_report (by decide) ha
    · exact resolveRead_report (by decide) hb
    · exact resolveWriteAddress_report (by decide) hc
  | input a => exact resolveWriteAddress_report (by decide) (routeInput_error h)
  | output a | adjustRelativeBase a => exact resolveRead_report (by decide) (routeRead_error h)
  | jumpIfTrue a b | jumpIfFalse a b =>
    obtain ha | hb := routeReadRead_error h
    · exact resolveRead_report (by decide) ha
    · exact resolveRead_report (by decide) hb
  | halt => cases h

section
variable {s : State}

/-- The record of a fetch at a negative IP describes the step (42_dispatch_step.md R101). -/
theorem describes_negative_ip (hip : s.ip < 0) :
    FaultRecord.describes ⟨.negativeAddress, s.ip, none, 0, some s.ip⟩ s where
  ip := rfl
  opcode := (if_pos hip).symm
  addr_some := by simp
  addr_negative := by simpa using hip
  pos_zero := by simp [hip]

/-- The record of a decoder's fault describes the step. -/
theorem describes_decodeCell_error {r : FaultReport} (hip : 0 ≤ s.ip)
    (h : decodeCell (s.mem.read s.ip.toNat) = .error r) :
    FaultRecord.describes ⟨r.cause, s.ip, some (s.mem.read s.ip.toNat), r.pos, r.addr⟩ s := by
  have hop : some (s.mem.read s.ip.toNat) = if s.ip < 0 then none else some (s.mem.read s.ip.toNat) := by
    rw [if_neg (not_lt.2 hip)]
  obtain rfl | rfl | ⟨c, -, k, hk0, hk⟩ := decodeCell_error h
  · exact ⟨rfl, hop, by simp, by simp, by simp⟩
  · exact ⟨rfl, hop, by simp, by simp, by simp⟩
  · obtain ⟨haddr, hpos, hcause, -⟩ := checkPosition_error hk
    obtain hcause | hcause := hcause <;>
      exact ⟨rfl, hop, by simp [haddr, hcause], by simp [haddr], by simp [hpos, hk0, hcause, not_lt.2 hip]⟩

/-- The record of an operand's fault describes the step of the instruction at IP. -/
theorem describes_operandReport {i : Instr} {r : FaultReport} (hi : instrAtIp i s) (h : OperandReport r) :
    FaultRecord.describes ⟨r.cause, s.ip, some (opcodeCell i), r.pos, r.addr⟩ s := by
  obtain ⟨hpos, hcause⟩ := h
  have hip : ¬ s.ip < 0 := not_lt.2 hi.1
  have hop : some (opcodeCell i) = if s.ip < 0 then none else some (s.mem.read s.ip.toNat) := by
    rw [if_neg hip, opcodeCell_of_instrAtIp hi]
  obtain ⟨hcause, a, ha, haddr⟩ | ⟨hcause, haddr⟩ := hcause
  · exact ⟨rfl, hop, by simp [hcause, haddr], by simp [haddr, ha], by simp [hpos, hip, hcause]⟩
  · exact ⟨rfl, hop, by simp [hcause, haddr], by simp [haddr], by simp [hpos, hip, hcause]⟩

end

/-! ### What a step can do -/

/-- What a Running step can do: enter a fault, with a record that describes the step, or commit one of the effects of
the instruction at IP (42_dispatch_step.md R100 to R103). -/
theorem step_running_cases {s t : State} (hs : s.status = .running) (h : step s = .next t) :
    (∃ r : FaultRecord, r.describes s ∧ t = { s with status := .faulted, faultRec := some r }) ∨
      ∃ i e, instrAtIp i s ∧ Gives s i e ∧ t = commit e i.cls.arity s := by
  obtain ⟨f, hf, rfl⟩ | ⟨i, hf, hi⟩ := step_cases hs h
  · obtain ⟨hip, rfl⟩ | ⟨hip, r, hr, rfl⟩ := fetchInstr_error hf
    · exact .inl ⟨_, describes_negative_ip hip, enterFault_eq ..⟩
    · exact .inl ⟨_, describes_decodeCell_error hip hr, enterFault_eq ..⟩
  · have hat := fetchInstr_ok_iff.1 hf
    obtain ⟨r, hr, rfl⟩ | ⟨e, he, rfl⟩ := exec_next_gives hi
    · exact .inl ⟨_, describes_operandReport hat (effectOf_report hr), enterFault_eq ..⟩
    · exact .inr ⟨i, e, hat, he, rfl⟩

theorem eq_of_step_not_running {s t : State} (hs : s.status ≠ .running) (h : step s = .next t) : t = s := by
  rw [step_not_running hs] at h
  injection h with h
  exact h.symm

/-- Settles O40: only the fault of a step leaves STATUS Faulted, and its record describes the step. -/
theorem faultsArePrecise : Obligations.FaultsArePrecise := by
  unfold Obligations.FaultsArePrecise
  intro s t hs h ht
  obtain ⟨r, hr, rfl⟩ | ⟨i, e, -, -, rfl⟩ := step_running_cases hs h
  · exact ⟨r, rfl, hr.ip, hr.opcode⟩
  · exact absurd ht (commit_not_faulted _ s e)

/-- A step that ends AwaitingInput ran an Input with an empty queue, and changed STATUS only
(42_dispatch_step.md R104). -/
theorem step_awaiting {s t : State} (hs : s.status = .running) (h : step s = .next t)
    (ht : t.status = .awaitingInput) : t = { s with status := .awaitingInput } ∧ s.inQ = [] ∧
      ∃ a, instrAtIp (.input a) s ∧ writable a s := by
  obtain ⟨r, -, rfl⟩ | ⟨i, e, hat, he, rfl⟩ := step_running_cases hs h
  · cases ht
  · cases he with
    | await ha hq => exact ⟨commit_await _ s, hq, _, hat, ha⟩
    | store | inputStore | emit | adjust | jump | next | halt => cases ht

/-- Settles O41: the push leaves IP and memory, so the same Input is at IP, and it finds the pushed value alone in the
queue. -/
theorem suspendedInputResumes : Obligations.SuspendedInputResumes := by
  unfold Obligations.SuspendedInputResumes
  intro s t hs h ht
  obtain ⟨rfl, hq, a, hat, ha⟩ := step_awaiting hs h ht
  refine ⟨rfl, hq, a, hat, fun v => ?_⟩
  calc step (pushInput v { s with status := .awaitingInput })
    _ = step { s with inQ := [v], status := .running } := by rw [pushInput_awaiting rfl, hq]; rfl
    _ = exec (.input a) { s with inQ := [v], status := .running } := step_of_instrAtIp rfl hat
    _ = _ := exec_input_cons ha rfl
    _ = _ := by rw [← hq, ← hs]; rfl

/-- Settles O42: by the effect of i; only a jump's target does not come from the advance of IP, and a fault and a
suspension commit no IP. -/
theorem pointerAdvanceOfAStep : Obligations.PointerAdvanceOfAStep := by
  unfold Obligations.PointerAdvanceOfAStep
  intro s t i hs hat h
  rw [step_of_instrAtIp hs hat] at h
  obtain ⟨r, -, rfl⟩ | ⟨e, he, rfl⟩ := exec_next_gives h
  · simp [enterFault_eq]
  · cases he with
    | store v hw =>
      have notJump : i.cls.isJump ≠ true := fun hj => by simp [writeOperand_of_isJump hj] at hw
      simp [commit_store, notJump]
    | await => simp [commit_await]
    | inputStore => simp [commit_inputStore, Instr.cls, InstrClass.isJump]
    | emit => simp [commit_emit, Instr.cls, InstrClass.isJump]
    | adjust => simp [commit_adjust, Instr.cls, InstrClass.isJump]
    | jump hj hb => simp [commit_jump, hj, hb]
    | next hj => simp [commit_next, hj, InstrClass.arity_of_isJump hj, Int.add_assoc]
    | halt => simp [commit_halt]

/-- A write changes the read of its own address only. -/
theorem Memory.eq_of_read_write_ne {m : Memory} (hm : m.wf) {a x : Nat} {v : Int}
    (h : (m.write a v).read x ≠ m.read x) : x = a := by
  by_contra hx
  exact h (Memory.read_write_other hm hx v)

theorem operandAddress_nonneg {o : Operand} {s : State} (h : writable o s) : 0 ≤ operandAddress o s := by
  obtain ⟨-, h0, ha⟩ | ⟨-, h0, ha⟩ := writable_cases h <;> rwa [ha]

/-- Settles O44: the effects that write memory are the stores, each at the address of the write operand. -/
theorem onlyWriteOperandsChangeMemory : Obligations.OnlyWriteOperandsChangeMemory := by
  unfold Obligations.OnlyWriteOperandsChangeMemory
  intro s t x hwf h hx
  by_cases hs : s.status = .running
  · obtain ⟨r, -, rfl⟩ | ⟨i, e, hat, he, rfl⟩ := step_running_cases hs h
    · exact absurd rfl hx
    · cases he with
      | store v hw target =>
        have hxa := Memory.eq_of_read_write_ne hwf hx
        exact ⟨i, _, hat, hw, target, by rw [hxa, Int.toNat_of_nonneg (operandAddress_nonneg target)]⟩
      | inputStore target hq =>
        have hxa := Memory.eq_of_read_write_ne hwf hx
        exact ⟨_, _, hat, rfl, target, by rw [hxa, Int.toNat_of_nonneg (operandAddress_nonneg target)]⟩
      | await | emit | adjust | jump | next | halt => exact absurd rfl hx
  · obtain rfl := eq_of_step_not_running hs h
    exact absurd rfl hx

/-- Settles O45: the effect inputStore alone takes from InQ, and the effect emit alone adds to OutQ. -/
theorem channelsMoveOneValueInOrder : Obligations.ChannelsMoveOneValueInOrder := by
  unfold Obligations.ChannelsMoveOneValueInOrder
  intro s t h
  by_cases hs : s.status = .running
  · obtain ⟨r, -, rfl⟩ | ⟨i, e, hat, he, rfl⟩ := step_running_cases hs h
    · exact ⟨.inl rfl, .inl rfl⟩
    · cases he with
      | inputStore ha hq =>
        rw [commit_inputStore]
        exact ⟨.inr ⟨_, _, hat, by rw [hq]; rfl, rfl⟩, .inl rfl⟩
      | emit o => exact ⟨.inl rfl, .inr ⟨o, hat, by rw [commit_emit]⟩⟩
      | store | await | adjust | jump | next | halt => exact ⟨.inl rfl, .inl rfl⟩
  · obtain rfl := eq_of_step_not_running hs h
    exact ⟨.inl rfl, .inl rfl⟩

end Sys2Proof.Machine
end

section
/-! PROOFS. What a step depends on (42_dispatch_step.md R111), and steps and host actions on a machine that is not
Running (60_exceptions.md R134 to R136). -/

namespace Sys2Proof.Machine

/-! ### Determinism -/

section
variable {s s' : State}

theorem fetchInstr_congr (hip : s.ip = s'.ip) (hmem : s.mem = s'.mem) : fetchInstr s = fetchInstr s' := by
  rw [fetchInstr, fetchInstr, hip, hmem]

/-- The effect depends on RB, memory and the head of InQ only: the routing looks at nothing else. -/
theorem effectOf_congr (i : Instr) (hrb : s.rb = s'.rb) (hmem : s.mem = s'.mem) (hq : s.inQ.head? = s'.inQ.head?) :
    effectOf i s = effectOf i s' := by
  cases i with
  | add | multiply | lessThan | equals => simp [effectOf, routeReadReadWrite, hrb, hmem]
  | jumpIfTrue | jumpIfFalse => simp [effectOf, routeReadRead, hrb, hmem]
  | output | adjustRelativeBase => simp [effectOf, routeRead, hrb, hmem]
  | input => simp [effectOf, routeInput, hrb, hq]
  | halt => rfl

end

/-- The next states t of s and t' of s' agree on IP, RB, memory, STATUS and, if Faulted, the record; the same values were
emitted and the same number consumed. -/
structure SameStep (s s' t t' : State) : Prop where
  ip : t.ip = t'.ip
  rb : t.rb = t'.rb
  mem : t.mem = t'.mem
  status : t.status = t'.status
  faultRec : t.status = .faulted → t.faultRec = t'.faultRec
  emitted : ∃ emitted, t.outQ = s.outQ ++ emitted ∧ t'.outQ = s'.outQ ++ emitted
  consumed : ∃ n, t.inQ = s.inQ.drop n ∧ t'.inQ = s'.inQ.drop n

section
variable {s s' : State} (hip : s.ip = s'.ip) (hrb : s.rb = s'.rb) (hmem : s.mem = s'.mem)
include hip hrb hmem

theorem enterFault_sameStep (op : Option Int) (r : FaultReport) :
    SameStep s s' (enterFault op r s) (enterFault op r s') where
  ip := hip
  rb := hrb
  mem := hmem
  status := rfl
  faultRec _ := by rw [enterFault_eq, enterFault_eq, hip]
  emitted := ⟨[], (List.append_nil _).symm, (List.append_nil _).symm⟩
  consumed := ⟨0, rfl, rfl⟩

/-- Each row of the commit table writes values that depend on the effect and on the old IP, RB and memory, emits what the
effect holds, and consumes one value or none. -/
theorem commit_sameStep (e : Effect) (n : Nat) : SameStep s s' (commit e n s) (commit e n s') where
  ip := by cases e <;> simp [commit, advance, hip]
  rb := by cases e <;> simp [commit, advance, hrb]
  mem := by cases e <;> simp [commit, advance, hmem]
  status := by rw [commit_status, commit_status]
  faultRec h := absurd h (commit_not_faulted n s e)
  emitted := by
    cases e with
    | emit v => exact ⟨[v], rfl, rfl⟩
    | store | inputStore | await | jump | next | adjust | halt =>
      exact ⟨[], (List.append_nil _).symm, (List.append_nil _).symm⟩
  consumed := by
    cases e with
    | inputStore => exact ⟨1, List.drop_one.symm, List.drop_one.symm⟩
    | store | await | emit | jump | next | adjust | halt => exact ⟨0, rfl, rfl⟩

/-- The same instruction on states that agree on IP, RB, memory and the head of InQ. -/
theorem exec_sameStep {i : Instr} {t t' : State} (hq : s.inQ.head? = s'.inQ.head?) (h : exec i s = .next t)
    (h' : exec i s' = .next t') : SameStep s s' t t' := by
  have heff := effectOf_congr i hrb hmem hq
  cases he : effectOf i s with
  | error r =>
    rw [exec_of_error he] at h
    rw [exec_of_error (heff.symm.trans he)] at h'
    cases h
    cases h'
    exact enterFault_sameStep hip hrb hmem _ r
  | ok e =>
    rw [exec_of_effect he] at h
    rw [exec_of_effect (heff.symm.trans he)] at h'
    cases h
    cases h'
    exact commit_sameStep hip hrb hmem e _

theorem step_sameStep {t t' : State} (hs : s.status = .running) (hs' : s'.status = .running)
    (hq : s.inQ.head? = s'.inQ.head?) (h : step s = .next t) (h' : step s' = .next t') : SameStep s s' t t' := by
  have hfetch := fetchInstr_congr hip hmem
  obtain ⟨f, hf, rfl⟩ | ⟨i, hi, hexec⟩ := step_cases hs h <;>
    obtain ⟨f', hf', rfl⟩ | ⟨i', hi', hexec'⟩ := step_cases hs' h'
  · rw [hfetch, hf'] at hf
    cases hf
    exact enterFault_sameStep hip hrb hmem _ _
  · simp [hfetch, hi'] at hf
  · simp [hfetch, hf'] at hi
  · rw [hfetch, hi'] at hi
    cases hi
    exact exec_sameStep hip hrb hmem hq hexec hexec'

end

/-- Settles O46: the two fetch the same instruction, and it has the same effect or the same fault. -/
theorem stepDependsOnlyOnItsInputs : Obligations.StepDependsOnlyOnItsInputs := by
  unfold Obligations.StepDependsOnlyOnItsInputs
  intro s s' t t' hs hs' hip hrb hmem hq h h'
  obtain ⟨ip, rb, mem, status, faultRec, emitted, consumed⟩ := step_sameStep hip hrb hmem hs hs' hq h h'
  exact ⟨ip, rb, mem, status, faultRec, emitted, consumed⟩

/-! ### A machine that is not Running -/

/-- Settles O38: each requested step answers its own state, by induction on their number. -/
theorem stepsOfStoppedInstanceHaveNoEffect : Obligations.StepsOfStoppedInstanceHaveNoEffect := by
  unfold Obligations.StepsOfStoppedInstanceHaveNoEffect
  exact fun _ k hs => runSchedule_replicate_issueStep hs k

/-- A host action that makes a machine Running is a reset, or a push to one that is AwaitingInput. -/
theorem act_revives {a : HostAction} {s t : State} (h : act a s = .next t) (hs : s.status ≠ .running)
    (ht : t.status = .running) :
    (∃ image inputs, a = .reset image inputs) ∨ (s.status = .awaitingInput ∧ ∃ v, a = .push v) := by
  cases a with
  | reset image inputs => exact .inl ⟨image, inputs, rfl⟩
  | issueStep => exact absurd (eq_of_step_not_running hs h ▸ ht) hs
  | push v =>
    by_cases hw : s.status = .awaitingInput
    · exact .inr ⟨hw, v, rfl⟩
    · obtain rfl := Host.Outcome.next.inj h
      rw [pushInput_not_awaiting hw] at ht
      exact absurd ht hs
  | take n =>
    obtain rfl := Host.Outcome.next.inj h
    exact absurd ht hs

/-- No step clears FAULTREC: a fault sets it, and a commit does not touch it. -/
theorem step_faultRec_isSome {s t : State} (hrec : s.faultRec.isSome) (h : step s = .next t) : t.faultRec.isSome := by
  by_cases hs : s.status = .running
  · obtain ⟨r, -, rfl⟩ | ⟨i, e, -, -, rfl⟩ := step_running_cases hs h
    · rfl
    · rwa [commit_faultRec]
  · rwa [eq_of_step_not_running hs h]

/-- Settles O39: the three clauses are the lemmas above; a Faulted machine is one that is not Running. -/
theorem onlyResetOrInputRevives : Obligations.OnlyResetOrInputRevives := by
  unfold Obligations.OnlyResetOrInputRevives
  exact ⟨fun _ _ _ => act_revives, fun s t hs => eq_of_step_not_running (by rw [hs]; decide),
    fun _ _ => step_faultRec_isSome⟩

end Sys2Proof.Machine
end

section
/-! PROOFS. The invariant of the state: a reset meets it, every step and every host action keeps it, and so does every
schedule of them (10_state.md sections 4, 5 and 8, 60_exceptions.md sections 3 and 4). -/

namespace Sys2Proof.Machine

/-! ### States that meet the invariant -/

section
variable {s t : State}

/-- A record describes any state with the same IP and memory. -/
theorem describes_congr {r : FaultRecord} (h : r.describes s) (hip : t.ip = s.ip) (hmem : t.mem = s.mem) :
    r.describes t := by
  obtain ⟨ip, opcode, addr_some, addr_negative, pos_zero⟩ := h
  exact ⟨by rw [ip, hip], by rw [opcode, hip, hmem], addr_some, addr_negative, by rw [pos_zero, hip]⟩

theorem instrAtIp_congr {i : Instr} (h : instrAtIp i s) (hip : t.ip = s.ip) (hmem : t.mem = s.mem) :
    instrAtIp i t := by
  unfold instrAtIp cellsAtIp at *
  rwa [hip, hmem]

/-- A state that is not Faulted and holds no record meets the invariant when its memory and its waiting do. -/
theorem stateInvariant_of_no_record (hwf : t.mem.wf) (hrec : t.faultRec = none) (hs : t.status ≠ .faulted)
    (waiting : t.status = .awaitingInput → t.inQ = [] ∧ ∃ a, instrAtIp (.input a) t) : StateInvariant t where
  memory := hwf
  record_iff := by simp [hrec, hs]
  record := by simp [hrec]
  waiting := waiting

/-- The state a fault leaves meets the invariant when its record describes the step. -/
theorem stateInvariant_faulted {r : FaultRecord} (hwf : s.mem.wf) (hr : r.describes s) :
    StateInvariant { s with status := .faulted, faultRec := some r } where
  memory := hwf
  record_iff := by simp
  record q hq := by
    obtain rfl := Option.some.inj hq
    exact describes_congr hr rfl rfl
  waiting h := nomatch h

theorem faultRec_none_of_invariant (h : StateInvariant s) (hs : s.status ≠ .faulted) : s.faultRec = none := by
  cases hrec : s.faultRec with
  | none => rfl
  | some r => exact absurd (h.record_iff.1 (by rw [hrec]; rfl)) hs

/-! ### Every action keeps it -/

/-- By what a step can do: a fault's record describes the step, a commit leaves no record where there was none, and only
a suspended Input leaves AwaitingInput, with the queue that it found empty and with IP and memory as they were. -/
theorem step_keeps_invariant (h : StateInvariant s) (ht : step s = .next t) : StateInvariant t := by
  by_cases hs : s.status = .running
  · have hwf : t.mem.wf := step_mem_wf h.memory ht
    obtain ⟨r, hr, rfl⟩ | ⟨i, e, -, -, rfl⟩ := step_running_cases hs ht
    · exact stateInvariant_faulted h.memory hr
    · have hnone : s.faultRec = none := faultRec_none_of_invariant h (by rw [hs]; decide)
      refine stateInvariant_of_no_record hwf ?_ (commit_not_faulted _ s e) fun hw => ?_
      · rw [commit_faultRec, hnone]
      · obtain ⟨heq, hq, a, hat, -⟩ := step_awaiting hs ht hw
        rw [heq]
        exact ⟨hq, a, instrAtIp_congr hat rfl rfl⟩
  · rwa [eq_of_step_not_running hs ht]

theorem pushInput_eq (v : Int) (s : State) : pushInput v s = { s with
    inQ := s.inQ ++ [v]
    status := if s.status = .awaitingInput then .running else s.status } := by
  by_cases hs : s.status = .awaitingInput
  · rw [pushInput_awaiting hs, if_pos hs]
  · rw [pushInput_not_awaiting hs, if_neg hs]

theorem pushInput_keeps_invariant (v : Int) (h : StateInvariant s) : StateInvariant (pushInput v s) := by
  by_cases hs : s.status = .awaitingInput
  · have hnone : s.faultRec = none := faultRec_none_of_invariant h (by rw [hs]; decide)
    rw [pushInput_awaiting hs]
    exact stateInvariant_of_no_record h.memory hnone Status.noConfusion Status.noConfusion
  · rw [pushInput_not_awaiting hs]
    exact ⟨h.memory, h.record_iff, fun r hr => describes_congr (h.record r hr) rfl rfl, fun hw => absurd hw hs⟩

theorem takeOutput_keeps_invariant (n : Nat) (h : StateInvariant s) : StateInvariant (takeOutput n s) :=
  ⟨h.memory, h.record_iff, fun r hr => describes_congr (h.record r hr) rfl rfl, h.waiting⟩

theorem hostReset_invariant (image inputs : List Int) : StateInvariant (hostReset image inputs) :=
  stateInvariant_of_no_record (hostReset_mem_wf image inputs) rfl Status.noConfusion Status.noConfusion

theorem act_keeps_invariant {a : HostAction} (h : StateInvariant s) (ht : act a s = .next t) : StateInvariant t := by
  cases a with
  | reset image inputs =>
    obtain rfl := Host.Outcome.next.inj ht
    exact hostReset_invariant image inputs
  | issueStep => exact step_keeps_invariant h ht
  | push v =>
    obtain rfl := Host.Outcome.next.inj ht
    exact pushInput_keeps_invariant v h
  | take n =>
    obtain rfl := Host.Outcome.next.inj ht
    exact takeOutput_keeps_invariant n h

theorem runSchedule_keeps_invariant {as : List HostAction} (h : StateInvariant s)
    (ht : runSchedule as s = .next t) : StateInvariant t := by
  induction as generalizing s with
  | nil =>
    obtain rfl := Host.Outcome.next.inj ht
    exact h
  | cons a as ih =>
    rw [runSchedule] at ht
    cases ha : act a s with
    | next u =>
      rw [ha] at ht
      exact ih (act_keeps_invariant h ha) ht
    | fault r => exact nomatch r
    | refused r =>
      rw [ha] at ht
      cases ht

end

/-- Settles O50, by `step_keeps_invariant`. -/
theorem stepKeepsInvariant : Obligations.StepKeepsInvariant := by
  unfold Obligations.StepKeepsInvariant
  exact fun _ _ => step_keeps_invariant

/-- Settles O51, by induction on the schedule: a reset meets the invariant, and every action keeps it. -/
theorem reachableStatesMeetInvariant : Obligations.ReachableStatesMeetInvariant := by
  unfold Obligations.ReachableStatesMeetInvariant
  exact fun image inputs _ _ => runSchedule_keeps_invariant (hostReset_invariant image inputs)

/-- Settles O48: the reset without arguments is the reset with the empty image and no input. -/
theorem resetMeetsInvariant : Obligations.ResetMeetsInvariant := by
  unfold Obligations.ResetMeetsInvariant
  exact hostReset_invariant [] []

/-- Settles O49: every field but memory is a constant of the reset or its argument, and the loaded memory is
canonical. -/
theorem resetLeavesSpecifiedState : Obligations.ResetLeavesSpecifiedState := by
  unfold Obligations.ResetLeavesSpecifiedState
  exact ⟨fun image inputs => ⟨rfl, rfl, rfl, rfl, rfl, rfl, hostReset_invariant image inputs⟩, rfl⟩

/-- Settles O52: what the take removes stands in front of what it leaves; neither action touches IP, memory or
FAULTREC, and a push leaves no machine waiting. -/
theorem hostChannelActions : Obligations.HostChannelActions := by
  unfold Obligations.HostChannelActions
  exact ⟨pushInput_eq, fun n s => ⟨List.take_append_drop n s.outQ, rfl⟩, fun v _ => pushInput_keeps_invariant v,
    fun n _ => takeOutput_keeps_invariant n⟩

end Sys2Proof.Machine
end
